-- ==== Sys2Proof/Word.lean ====
section
/-! DEFINITION. The machine's words and their readings as integers (00_scope.md R6, R7). -/

namespace Sys2Proof

/-- A 32-bit pattern: a register, the program counter, an instruction word (R7). -/
abbrev Word := BitVec 32

/-- The unit of addressing of the memory collaborator (R23). -/
abbrev Byte := BitVec 8

/-- A register index, `0 .. 31`: a 5-bit field can name every register and nothing else (R11, R14). -/
abbrev RegIdx := Fin 32

/-- `u32(v)`: the pattern read as an integer in `0 .. 2^32 - 1` (R7). -/
def u32 (v : Word) : Int := v.toNat

/-- `s32(v)`: the pattern read in two's complement, in `-2^31 .. 2^31 - 1` (R7). -/
def s32 (v : Word) : Int := if v.getLsbD 31 then u32 v - 2 ^ 32 else u32 v

/-- `wrap32(n)`: the pattern `n mod 2^32` of any integer (R7). -/
def wrap32 (n : Int) : Word := BitVec.ofInt 32 n

/-- The pattern `INT32_MIN` (R7). -/
abbrev int32Min : Word := 0x80000000#32

end Sys2Proof
end

