-- ==== Sys2Proof/Config.lean ====
section
/-! DEFINITION. The types of the hardware's parameters (00_scope.md R5). The parameters are held in
`Machine.State` as plain data, so that a statement about every state speaks about every value of them;
no step and no command changes them. The default values are in Machine/Defaults.lean. -/

namespace Sys2Proof

/-- `BYTE_ORDER`: how the 4 fetched bytes form the word (R5, R27). -/
inductive ByteOrder where
  | big
  | little
  deriving DecidableEq, Repr

/-- `OVF_DETECT`: which overflow test ADD and SUB use (R5, R68). -/
inductive OvfDetect where
  | strict
  | signbit
  deriving DecidableEq, Repr

/-- The four behavioural parameters of R5. -/
structure Params where
  /-- `BYTE_ORDER` (R27). -/
  byteOrder : ByteOrder
  /-- `R0_HARDWIRED`: register 0 reads zero and ignores writes (R12, R13). -/
  r0Hardwired : Bool
  /-- `PC_ADVANCE_ON_EXCEPTION` (R57). -/
  pcAdvanceOnException : Bool
  /-- `OVF_DETECT` (R68). -/
  ovfDetect : OvfDetect
  deriving DecidableEq, Repr

/-- What the memory collaborator does with a request whose bytes cross the top of the 32-bit space.
R29: "whether the collaborator fails such a read, wraps it to address 0, or extends beyond 32 bits is
its own affair". -/
inductive Straddle where
  | fails (code : Nat)
  | wraps
  | beyond
  deriving DecidableEq, Repr

/-- The memory collaborator's own choices, part of the parameter `MEM` (R5, R24, R28, R29). -/
structure MemPolicy where
  /-- The code of the failure of a read that touches a byte which is not there (R93, R98). -/
  absent : Nat
  /-- `some c`: a request at an address that is no multiple of 4 fails with code `c`;
  `none`: it is served (R28). -/
  misaligned : Option Nat
  /-- A request that crosses the top of the 32-bit space (R29). -/
  straddle : Straddle
  deriving DecidableEq, Repr

end Sys2Proof
end

