-- ==== Sys2Proof/Syntax.lean ====
section
/-! DEFINITION. The instruction set: one constructor for each row of spec/opcode_table.json (30_encoding.md R44). -/

namespace Sys2Proof

/-- The seven instructions. Each carries the fields of the register format in the order of the word:
`rs` (bits 25:21), `rt` (20:16), `rd` (15:11) and `shamt` (10:6). `shamt` plays no part in the meaning
(R46); it is kept so that no bit of a word is lost. -/
inductive Instr where
  /-- ADD, add, trapping (R69). -/
  | add (rs rt rd : RegIdx) (shamt : Nat)
  /-- ADDU, add, non-trapping (R70). -/
  | addu (rs rt rd : RegIdx) (shamt : Nat)
  /-- SUB, subtract, trapping (R71). -/
  | sub (rs rt rd : RegIdx) (shamt : Nat)
  /-- SUBU, subtract, non-trapping (R72). -/
  | subu (rs rt rd : RegIdx) (shamt : Nat)
  /-- AND, bitwise AND (R78). -/
  | and (rs rt rd : RegIdx) (shamt : Nat)
  /-- OR, bitwise OR (R79). -/
  | or (rs rt rd : RegIdx) (shamt : Nat)
  /-- XOR, bitwise exclusive OR (R80). -/
  | xor (rs rt rd : RegIdx) (shamt : Nat)
  deriving DecidableEq, Repr

namespace Instr

/-- Bits 25:21, the source register. -/
def rs : Instr → RegIdx
  | .add rs _ _ _ => rs
  | .addu rs _ _ _ => rs
  | .sub rs _ _ _ => rs
  | .subu rs _ _ _ => rs
  | .and rs _ _ _ => rs
  | .or rs _ _ _ => rs
  | .xor rs _ _ _ => rs

/-- Bits 20:16, the target register. -/
def rt : Instr → RegIdx
  | .add _ rt _ _ => rt
  | .addu _ rt _ _ => rt
  | .sub _ rt _ _ => rt
  | .subu _ rt _ _ => rt
  | .and _ rt _ _ => rt
  | .or _ rt _ _ => rt
  | .xor _ rt _ _ => rt

/-- Bits 15:11, the destination register. -/
def rd : Instr → RegIdx
  | .add _ _ rd _ => rd
  | .addu _ _ rd _ => rd
  | .sub _ _ rd _ => rd
  | .subu _ _ rd _ => rd
  | .and _ _ rd _ => rd
  | .or _ _ rd _ => rd
  | .xor _ _ rd _ => rd

/-- Bits 10:6, the shift amount (ignored, R46). -/
def shamt : Instr → Nat
  | .add _ _ _ sh => sh
  | .addu _ _ _ sh => sh
  | .sub _ _ _ sh => sh
  | .subu _ _ _ sh => sh
  | .and _ _ _ sh => sh
  | .or _ _ _ sh => sh
  | .xor _ _ _ sh => sh

end Instr

end Sys2Proof
end

