-- ==== Sys2Proof/WellFormed.lean ====
section
/-! DEFINITION. When an instruction can be written as a word (30_encoding.md R38): the register indices are in
`0 .. 31` by their type, the shift amount must fit its 5 bits. -/

namespace Sys2Proof

/-- The instruction has an encoding: its shift amount fits bits 10:6 (R38). -/
abbrev Instr.WellFormed (i : Instr) : Prop := i.shamt < 32

end Sys2Proof
end

