-- ==== Sys2Proof/Decode.lean ====
section
/-! DEFINITION. Byte order, classifier, field decoders, opcode map, and the encoder (20_memory.md R27, 30_encoding.md). -/

namespace Sys2Proof

/-! ### The word and its bytes -/

/-- The word made of the fetched bytes, `b0` the byte at `pc` (R27). -/
def wordOfBytes (o : ByteOrder) (b0 b1 b2 b3 : Byte) : Word :=
  match o with
  | .big => b0 ++ b1 ++ b2 ++ b3
  | .little => b3 ++ b2 ++ b1 ++ b0

/-- Byte `k` of a word counted from its least significant end. -/
def byteOfWord (w : Word) (k : Nat) : Byte := w.extractLsb' (8 * k) 8

/-- The four bytes of a word at ascending addresses (R27 read the other way; 95_test_vectors.md B2). -/
def bytesOfWord (o : ByteOrder) (w : Word) : List Byte :=
  match o with
  | .big => [byteOfWord w 3, byteOfWord w 2, byteOfWord w 1, byteOfWord w 0]
  | .little => [byteOfWord w 0, byteOfWord w 1, byteOfWord w 2, byteOfWord w 3]

/-! ### The classifier and the field decoders -/

/-- The family tags of the classifier (R41). -/
inductive Family where
  | register
  | immediate
  | jump
  deriving DecidableEq, Repr

/-- Bits 31:26 (R37). -/
def opcodeOf (w : Word) : BitVec 6 := w.extractLsb' 26 6

/-- Bits 5:0 (R38). -/
def functOf (w : Word) : BitVec 6 := w.extractLsb' 0 6

/-- A 5-bit register field whose lowest bit is `lo` (R38, R39). -/
def regField (lo : Nat) (w : Word) : RegIdx := (w.extractLsb' lo 5).toFin

/-- Bits 10:6 (R38). -/
def shamtOf (w : Word) : Nat := (w.extractLsb' 6 5).toNat

/-- The format classifier: total, by the opcode alone (R41; 90_conflicts.md C5: the table as written). -/
def classify (w : Word) : Family :=
  if (opcodeOf w).toNat = 0 then .register
  else if (opcodeOf w).toNat ≤ 3 then .immediate
  else .jump

/-- The decoded record, a tagged variant over the three families (R42). -/
inductive Decoded where
  /-- R38: rs, rt, rd, shamt, funct. -/
  | register (rs rt rd : RegIdx) (shamt : Nat) (funct : BitVec 6)
  /-- R39: opcode, source, destination, immediate. The last three are used by nothing. -/
  | immediate (opcode : BitVec 6) (rs rdI : RegIdx) (imm16 : BitVec 16)
  /-- R40: opcode, address field. The address field is used by nothing. -/
  | jump (opcode : BitVec 6) (addr26 : BitVec 26)
  deriving DecidableEq, Repr

/-- The field decoder of the family the classifier chose (R38, R39, R40, R55). -/
def fieldsOf (w : Word) : Decoded :=
  match classify w with
  | .register => .register (regField 21 w) (regField 16 w) (regField 11 w) (shamtOf w) (functOf w)
  | .immediate => .immediate (opcodeOf w) (regField 21 w) (regField 16 w) (w.extractLsb' 0 16)
  | .jump => .jump (opcodeOf w) (w.extractLsb' 0 26)

/-! ### The opcode map -/

/-- Why no instruction is read. The first three are the illegal words of R47; the last is a list of
bytes that holds no whole word (every instruction is 4 bytes, R37). -/
inductive Reject where
  /-- R47 (a), (b), (c): register format, function code outside `0x20 .. 0x26`. -/
  | unknownFunction (funct : BitVec 6)
  /-- R47 (d): opcode 1 to 3. -/
  | immediateFormat (opcode : BitVec 6)
  /-- R47 (e): opcode 4 to 63. -/
  | jumpFormat (opcode : BitVec 6)
  /-- Fewer than 4 bytes. -/
  | tooFewBytes
  deriving DecidableEq, Repr

/-- The opcode map of R44 on a decoded record; every other record is illegal (R47, R60, R61). -/
def select : Decoded → Except Reject Instr
  | .register rs rt rd shamt funct =>
    if funct = 0x20#6 then .ok (.add rs rt rd shamt)
    else if funct = 0x21#6 then .ok (.addu rs rt rd shamt)
    else if funct = 0x22#6 then .ok (.sub rs rt rd shamt)
    else if funct = 0x23#6 then .ok (.subu rs rt rd shamt)
    else if funct = 0x24#6 then .ok (.and rs rt rd shamt)
    else if funct = 0x25#6 then .ok (.or rs rt rd shamt)
    else if funct = 0x26#6 then .ok (.xor rs rt rd shamt)
    else .error (.unknownFunction funct)
  | .immediate opcode _ _ _ => .error (.immediateFormat opcode)
  | .jump opcode _ => .error (.jumpFormat opcode)

/-- The instruction a word stands for, or why it stands for none (R44, R47). -/
def decode (w : Word) : Except Reject Instr := select (fieldsOf w)

/-- The instruction at the head of a list of bytes, with the bytes after it. -/
def decodeBytes (o : ByteOrder) : List Byte → Except Reject (Instr × List Byte)
  | b0 :: b1 :: b2 :: b3 :: rest =>
    match decode (wordOfBytes o b0 b1 b2 b3) with
    | .ok i => .ok (i, rest)
    | .error e => .error e
  | _ => .error .tooFewBytes

/-! ### The encoder -/

/-- The function code of an instruction (R44). -/
def functCode : Instr → BitVec 6
  | .add _ _ _ _ => 0x20#6
  | .addu _ _ _ _ => 0x21#6
  | .sub _ _ _ _ => 0x22#6
  | .subu _ _ _ _ => 0x23#6
  | .and _ _ _ _ => 0x24#6
  | .or _ _ _ _ => 0x25#6
  | .xor _ _ _ _ => 0x26#6

/-- The word of the register format with these fields and opcode 0 (R51, with `shamt` in bits 10:6 by R38). -/
def registerWord (rs rt rd : RegIdx) (shamt : Nat) (funct : BitVec 6) : Word :=
  BitVec.ofNat 32 rs.val <<< 21 ||| BitVec.ofNat 32 rt.val <<< 16 ||| BitVec.ofNat 32 rd.val <<< 11 |||
    BitVec.ofNat 32 shamt <<< 6 ||| funct.setWidth 32

/-- The word of a well-formed instruction (R38, R44, R51). -/
def encode (i : Instr) : Word := registerWord i.rs i.rt i.rd i.shamt (functCode i)

/-- The bytes of a well-formed instruction at ascending addresses. -/
def encodeBytes (o : ByteOrder) (i : Instr) : List Byte := bytesOfWord o (encode i)

/-- What the decoder reads from the opcode table's word of `nbits` bits: the word is laid out as bytes
and the bytes are decoded. The byte order named here does not matter, since the same one lays out and
reads (`Laws.decodeBytes_bytesOfWord`). -/
def decodeTableWord (nbits w : Nat) : Option Instr :=
  match decodeBytes .big (bytesOfWord .big (BitVec.ofNat 32 (w % 2 ^ nbits))) with
  | .ok (i, _) => some i
  | .error _ => none

end Sys2Proof
end

