-- ==== Sys2Proof/Machine/Defaults.lean ====
section
/-! DEFINITION. The values the parameters and the memory collaborator have in the reset state
(00_scope.md R5; notes/assumptions 3 to 6, 11, 12). They stand here, and not in State.lean, so that a test that
shows another value can be answered by a change of this file. -/

namespace Sys2Proof.Machine

/-- The defaults of R5. `big` is the spec's choice (D1); `false`, `true` and `strict` are what it calls the
observed behaviour or the more exact text (D2, D3, D6). -/
def defaultParams : Params where
  byteOrder := .big
  r0Hardwired := false
  pcAdvanceOnException := true
  ovfDetect := .strict

/-- DESIGN CHOICE (log 12): the plain byte array of 95_test_vectors.md's preamble, with failure code 0. -/
def defaultPolicy : MemPolicy where
  absent := 0
  misaligned := none
  straddle := .fails 0

/-- DESIGN CHOICE (log 11): what an unlisted address of the memory reads as. `none`: nothing is there, a read
that touches it fails. -/
def unlisted : Option Byte := none

end Sys2Proof.Machine
end

