-- ==== Sys2Proof/Machine/State.lean ====
section
/-! DEFINITION. The machine's state, the statuses, the reasons a step can stop, and the reset state
(10_state.md; 60_exceptions.md R93). -/

namespace Sys2Proof.Machine

/-- The closed status taxonomy (R93). `memFailure c` is a failure of the memory collaborator, `c` its own code;
it is a constructor of its own, so that no code of the collaborator can be mistaken for a status of the block (R98). -/
inductive Status where
  /-- R94. -/
  | success
  /-- R95: a register index above 31 in `get_register` or `set_register`; never from `step`. -/
  | invalidArgument
  /-- R96: the fetched word is none of the seven instructions. -/
  | invalidInstruction
  /-- R97: the overflow test of ADD or SUB holds. -/
  | arithmeticOverflow
  /-- R98: the fetch failed. -/
  | memFailure (code : Nat)
  deriving DecidableEq, Repr

/-- The memory collaborator's answer to one read request of 4 bytes (R24). -/
inductive Answer where
  /-- Success, with the bytes at the four ascending addresses. -/
  | ok (b0 b1 b2 b3 : Byte)
  /-- A status other than Success; the bytes are not used. -/
  | fail (code : Nat)
  /-- The collaborator never answers (R118; 93_implementation_defined.md U9). -/
  | silent
  deriving DecidableEq, Repr

/-- The memory collaborator (R17, R23, R24), as data. -/
structure Memory where
  /-- The bytes that are there, by address, in the canonical form `Memory.wf`. -/
  cells : List Host.Cell
  /-- The collaborator's own choices. -/
  policy : MemPolicy
  /-- Answers the collaborator has ready for the next reads, oldest first: what a collaborator does that is
  more than a byte array (R24's oracle; reads with side effects, R30). Each read takes one; when none is left
  the bytes answer. -/
  answers : List Answer
  deriving DecidableEq, Repr

/-- The canonical form of the memory: addresses strictly rising, and no entry equal to what an unlisted
address reads as. -/
abbrev Memory.wf (m : Memory) : Prop :=
  m.cells.Pairwise (fun c d => c.1 < d.1) ∧ ∀ c ∈ m.cells, some c.2 ≠ unlisted

/-- A memory with nothing in it. -/
def Memory.empty : Memory where
  cells := []
  policy := defaultPolicy
  answers := []

/-- The state. The block's own state is `regs` and `pc` (R10). `mem` is the collaborator it refers to (R17),
`params` the fixed parameters (R5), and `status` the output of the last `step`: no step and no command looks at
the status it finds (R22; log 2). -/
structure State where
  /-- `x[0] .. x[31]` (R11). Read and written only through `State.readReg` and `State.writeReg`. -/
  regs : Vector Word 32
  /-- The program counter (R15). -/
  pc : Word
  /-- The memory collaborator (R17). -/
  mem : Memory
  /-- The parameters (R5). -/
  params : Params
  /-- The status the last `step` reported. The model's own field: R22 says the block stores no status. -/
  status : Status
  deriving DecidableEq, Repr

/-- Why the machine stops. -/
inductive Fault where
  /-- Raised by `step` when the memory collaborator never answers its read: the step has no end and the block
  takes no further command (R118; U9). Safe: nothing is claimed of a state after it. -/
  | memoryNeverAnswers
  deriving DecidableEq, Repr

/-- Why an instruction is not run. -/
inductive Refusal where
  /-- Raised by an arm of `exec` whose instruction has no meaning yet; no arm does. Safe. -/
  | notModelled (mnemonic : String)
  deriving DecidableEq, Repr

/-- The state creation leaves: "created with all registers and the program counter zeroed", with the memory
collaborator bound (R91, R109). -/
def State.created (params : Params) (mem : Memory) : State where
  regs := Vector.replicate 32 0
  pc := 0
  mem := mem
  params := params
  status := .success

/-- The machine right after power-on (R21, R110): all registers and the program counter zero, the default
parameters (R5), and a memory in which nothing has been placed. -/
def State.reset : State := State.created defaultParams Memory.empty

end Sys2Proof.Machine
end

