-- ==== Sys2Proof/Machine/Ops.lean ====
section
/-! DEFINITION. The operations over registers, program counter and memory that the meanings and the step share. -/

namespace Sys2Proof.Machine

/-! ### Registers -/

/-- Register 0 is hardwired and `i` is register 0 (R12, R13). -/
abbrev State.hardwired (s : State) (i : RegIdx) : Prop := s.params.r0Hardwired = true ∧ i = 0

/-- `x[i]` (R12). -/
def State.readReg (s : State) (i : RegIdx) : Word := if s.hardwired i then 0 else s.regs.get i

/-- `x[i] <- v` (R13). -/
def State.writeReg (s : State) (i : RegIdx) (v : Word) : State :=
  if s.hardwired i then s else { s with regs := s.regs.set i.val v i.isLt }

/-! ### How an instruction ends -/

/-- The instruction ends with Success and `x[rd] <- v`: the write phase of R67 and R77. -/
def State.complete (rd : RegIdx) (v : Word) (s : State) : State :=
  { s.writeReg rd v with status := .success }

/-- TAKING AN EXCEPTION, `raise e` (R8, R100, R102): nothing but the status is reported. No register is written,
nothing is saved, no mode changes, control goes to no handler; what the program counter does is the controller's
affair (`State.advance`). There is no return from exception (R104): the next `step` fetches from the current
program counter, and a host that wants to run the word again sets it (`Command.setPc`). -/
def State.raise (e : Status) (s : State) : State := { s with status := e }

/-- Phase 3 of the step (R53, R57): `pc0` is the program counter at the start of the step. `pcWritten` is the flag
by which a handler that sets the program counter itself would hold back the advance (R58); it is `false` for every
handler of this hardware. -/
def State.advance (pc0 : Word) (pcWritten : Bool) (s : State) : State :=
  if pcWritten then s
  else if s.status = .success ∨ s.params.pcAdvanceOnException = true then { s with pc := wrap32 (u32 pc0 + 4) }
  else s

/-! ### The memory collaborator -/

/-- The byte listed at an address. -/
def cellAt : List Host.Cell → Nat → Option Byte
  | [], _ => unlisted
  | (k, v) :: rest, a => if a = k then some v else cellAt rest a

/-- The list with byte `b` at address `a`. -/
def putCell : List Host.Cell → Nat → Byte → List Host.Cell
  | [], a, b => [(a, b)]
  | (k, v) :: rest, a, b =>
    if a < k then (a, b) :: (k, v) :: rest
    else if a = k then (a, b) :: rest
    else (k, v) :: putCell rest a b

/-- The list with nothing at address `a`. -/
def dropCell : List Host.Cell → Nat → List Host.Cell
  | [], _ => []
  | (k, v) :: rest, a => if a = k then rest else (k, v) :: dropCell rest a

/-- The byte at an address, if one is there (R23). -/
def Memory.readByte (m : Memory) (a : Nat) : Option Byte := cellAt m.cells a

/-- Stores one byte, keeping the canonical form. -/
def Memory.putByte (m : Memory) (a : Nat) (b : Byte) : Memory :=
  { m with cells := if some b = unlisted then dropCell m.cells a else putCell m.cells a b }

/-- The address of byte `k` of a request at `addr` (R24: ascending addresses; R29 at the top). -/
def byteAddr (p : MemPolicy) (addr : Word) (k : Nat) : Nat :=
  if p.straddle = .wraps then (addr.toNat + k) % 2 ^ 32 else addr.toNat + k

/-- The code with which the collaborator turns down a request of `n` bytes at `addr` for its address alone
(R28, R29); `none` when it serves it. -/
def refuses (p : MemPolicy) (addr : Word) (n : Nat) : Option Nat :=
  match p.misaligned, decide (addr.toNat % 4 = 0) with
  | some c, false => some c
  | _, _ =>
    match p.straddle with
    | .fails c => if addr.toNat + n > 2 ^ 32 then some c else none
    | .wraps => none
    | .beyond => none

/-- The answer of the bytes to `MemRead(addr, 4)`: Success when all four are there (R24). -/
def Memory.byteAnswer (m : Memory) (addr : Word) : Answer :=
  match refuses m.policy addr 4 with
  | some c => .fail c
  | none =>
    match m.readByte (byteAddr m.policy addr 0), m.readByte (byteAddr m.policy addr 1),
      m.readByte (byteAddr m.policy addr 2), m.readByte (byteAddr m.policy addr 3) with
    | some b0, some b1, some b2, some b3 => .ok b0 b1 b2 b3
    | _, _, _, _ => .fail m.policy.absent

/-- `MemRead(addr, 4)`, the one request the block makes (R24, R26): the oldest answer the collaborator has ready,
and the bytes' answer when it has none. -/
def Memory.read (m : Memory) (addr : Word) : Answer × Memory :=
  match m.answers with
  | a :: rest => (a, { m with answers := rest })
  | [] => (m.byteAnswer addr, m)

/-- Bytes stored at the ascending addresses of a request at `addr`, the first being its byte `k`. -/
def Memory.putBytes (m : Memory) (addr : Word) (k : Nat) : List Byte → Memory
  | [] => m
  | b :: rest => (m.putByte (byteAddr m.policy addr k) b).putBytes addr (k + 1) rest

/-- `MemWrite(addr, n, v)`, the collaborator's write port (R8, R25). No step drives it; it is how the host, or
another agent, places bytes (R33, R36, R113). DESIGN CHOICE (log 15): it fails exactly where the policy turns the
address down, and a byte written is there afterwards. -/
def Memory.write (m : Memory) (addr : Word) (bytes : List Byte) : Status × Memory :=
  match refuses m.policy addr bytes.length with
  | some c => (.memFailure c, m)
  | none => (.success, m.putBytes addr 0 bytes)

end Sys2Proof.Machine
end

