-- ==== Sys2Proof/Machine/Operands.lean ====
section
/-! DEFINITION. The operand forms: two source registers (30_encoding.md R45), and the effective operand of the
arithmetic unit (41_arithmetic.md R67). -/

namespace Sys2Proof.Machine

/-- The patterns of the source and the target register, both read before anything is written (R67, R77). -/
def State.sources (s : State) (rs rt : RegIdx) : Word × Word := (s.readReg rs, s.readReg rt)

/-- `e_pat`: the target for add, its 32-bit negation, which wraps, for subtract (R67, D7). -/
def effectiveOperand (sub : Bool) (b : Word) : Word := if sub then wrap32 (0 - u32 b) else b

/-- `r_pat`: the 32-bit result (R67). -/
def sumPattern (a e : Word) : Word := wrap32 (u32 a + u32 e)

end Sys2Proof.Machine
end

