-- ==== Sys2Proof/Machine/Flags.lean ====
section
/-! DEFINITION. The hardware has no flags (10_state.md R18); what another machine would put in an overflow flag is
the test of 41_arithmetic.md R68, whose outcome is only the step's status. -/

namespace Sys2Proof.Machine

/-- `overflow_strict(s, e, r)`, all six comparisons strict (R68). -/
def overflowStrict (s e r : Int) : Bool :=
  (decide (s > 0) && decide (e > 0) && decide (r < 0)) || (decide (s < 0) && decide (e < 0) && decide (r > 0))

/-- `overflow_signbit(a, e_pat, r_pat)` (R68). -/
def overflowSignbit (a e r : Word) : Bool :=
  (a.getLsbD 31 == e.getLsbD 31) && (r.getLsbD 31 != a.getLsbD 31)

/-- `overflow(...)`: the test that `OVF_DETECT` selects (R68; 90_conflicts.md C8), on the source, the effective
operand and the result. -/
def overflow (d : OvfDetect) (a e r : Word) : Bool :=
  match d with
  | .strict => overflowStrict (s32 a) (s32 e) (s32 r)
  | .signbit => overflowSignbit a e r

end Sys2Proof.Machine
end

