-- ==== Sys2Proof/Machine/Arithmetic.lean ====
section
/-! DEFINITION. The arithmetic unit: ADD, ADDU, SUB, SUBU (41_arithmetic.md R67 to R76). -/

namespace Sys2Proof.Machine

/-- The common datapath of R67. `sub` is bit 1 of the function code, `uns` bit 0. -/
def arithmetic (sub uns : Bool) (rs rt rd : RegIdx) (s : State) : Host.Outcome State Fault Refusal :=
  let (a, b) := s.sources rs rt
  let e := effectiveOperand sub b
  let r := sumPattern a e
  if !uns && overflow s.params.ovfDetect a e r then .next (s.raise .arithmeticOverflow)
  else .next (s.complete rd r)

/-- ADD (R69). -/
def execAdd (rs rt rd : RegIdx) (s : State) : Host.Outcome State Fault Refusal :=
  arithmetic false false rs rt rd s

/-- ADDU (R70). -/
def execAddu (rs rt rd : RegIdx) (s : State) : Host.Outcome State Fault Refusal :=
  arithmetic false true rs rt rd s

/-- SUB (R71). -/
def execSub (rs rt rd : RegIdx) (s : State) : Host.Outcome State Fault Refusal :=
  arithmetic true false rs rt rd s

/-- SUBU (R72). -/
def execSubu (rs rt rd : RegIdx) (s : State) : Host.Outcome State Fault Refusal :=
  arithmetic true true rs rt rd s

end Sys2Proof.Machine
end

