-- ==== Sys2Proof/Machine/Logic.lean ====
section
/-! DEFINITION. The logic unit: AND, OR, XOR (42_logic.md R77 to R81). -/

namespace Sys2Proof.Machine

/-- The common datapath of R77, over the bitwise operation that the function code selects. -/
def logic (op : Word → Word → Word) (rs rt rd : RegIdx) (s : State) : Host.Outcome State Fault Refusal :=
  let (a, b) := s.sources rs rt
  .next (s.complete rd (op a b))

/-- AND (R78). -/
def execAnd (rs rt rd : RegIdx) (s : State) : Host.Outcome State Fault Refusal :=
  logic (fun a b => a &&& b) rs rt rd s

/-- OR (R79). -/
def execOr (rs rt rd : RegIdx) (s : State) : Host.Outcome State Fault Refusal :=
  logic (fun a b => a ||| b) rs rt rd s

/-- XOR (R80). -/
def execXor (rs rt rd : RegIdx) (s : State) : Host.Outcome State Fault Refusal :=
  logic (fun a b => a ^^^ b) rs rt rd s

end Sys2Proof.Machine
end

