-- ==== Sys2Proof/Machine/Dispatch.lean ====
section
/-! DEFINITION. The execution dispatcher on an instruction (40_step_cycle.md R56): one arm per constructor. The
shift amount is read nowhere (30_encoding.md R46). -/

namespace Sys2Proof.Machine

def exec (i : Instr) (s : State) : Host.Outcome State Fault Refusal :=
  match i with
  | .add rs rt rd _ => Sys2Proof.Machine.execAdd rs rt rd s
  | .addu rs rt rd _ => Sys2Proof.Machine.execAddu rs rt rd s
  | .sub rs rt rd _ => Sys2Proof.Machine.execSub rs rt rd s
  | .subu rs rt rd _ => Sys2Proof.Machine.execSubu rs rt rd s
  | .and rs rt rd _ => Sys2Proof.Machine.execAnd rs rt rd s
  | .or rs rt rd _ => Sys2Proof.Machine.execOr rs rt rd s
  | .xor rs rt rd _ => Sys2Proof.Machine.execXor rs rt rd s

end Sys2Proof.Machine
end

