-- ==== Sys2Proof/Machine/Cycle.lean ====
section
/-! DEFINITION. The phases of the step cycle (40_step_cycle.md R53 to R59), which Step.lean puts together. -/

namespace Sys2Proof.Machine

/-- Phase 2 on a fetched word: classify, decode, dispatch (R55, R56). A word that is none of the seven raises
InvalidInstruction (R60, R61) and touches no register. -/
def dispatchWord (w : Word) (s : State) : Host.Outcome State Fault Refusal :=
  match decode w with
  | .ok i => exec i s
  | .error _ => .next (s.raise .invalidInstruction)

/-- Phase 3 after a dispatch (R57): no handler of this hardware writes the program counter, so the flag of R58
is `false`. -/
def finishStep (pc0 : Word) : Host.Outcome State Fault Refusal → Host.Outcome State Fault Refusal
  | .next t => .next (t.advance pc0 false)
  | .fault r => .fault r
  | .refused r => .refused r

/-- What a step does once the collaborator has answered its read (R53, R54, R59). -/
def afterFetch (s : State) : Answer → Host.Outcome State Fault Refusal
  | .ok b0 b1 b2 b3 => finishStep s.pc (dispatchWord (wordOfBytes s.params.byteOrder b0 b1 b2 b3) s)
  | .fail c => .next (s.raise (.memFailure c))
  | .silent => .fault .memoryNeverAnswers

/-- One instruction cycle (R53): exactly one read, at the program counter (R26). -/
def runCycle (s : State) : Host.Outcome State Fault Refusal :=
  let (answer, mem) := s.mem.read s.pc
  afterFetch { s with mem := mem } answer

/-- A collaborator's policy that serves a request of 4 bytes at `pc`: the one it has, if that does (log 20). -/
def servingPolicy (p : MemPolicy) (pc : Word) : MemPolicy :=
  match refuses p pc 4 with
  | none => p
  | some _ => { p with misaligned := none, straddle := .wraps }

/-- The word placed at the program counter in the machine's byte order, with nothing in the way of the read:
no other answer ready, and a policy that serves the address. -/
def placeWord (s : State) (w : Word) : State :=
  let m : Memory := { s.mem with policy := servingPolicy s.mem.policy s.pc, answers := [] }
  { s with mem := m.putBytes s.pc 0 (bytesOfWord s.params.byteOrder w) }

end Sys2Proof.Machine
end

