-- ==== Sys2Proof/Machine/Step.lean ====
section
/-! DEFINITION. The `step` command as the machine's one transition (40_step_cycle.md R53; 43_host_commands.md R88).
Every status that the block reports is a next state, with the status in the field `status` (log 2). -/

namespace Sys2Proof.Machine

/-- One `step`. -/
def step (s : State) : Host.Outcome State Fault Refusal := runCycle s

/-- The state with an instruction placed where the next step fetches it (log 20): the host's placing of a program
(R113). -/
def State.withFetchWord (s : State) (nbits w : Nat) : State := placeWord s (BitVec.ofNat 32 (w % 2 ^ nbits))

end Sys2Proof.Machine
end

