-- ==== Sys2Proof/Machine/Commands.lean ====
section
/-! DEFINITION. The host command interface (43_host_commands.md R82 to R92). -/

namespace Sys2Proof.Machine

/-- The commands of the running block (R82). `create` is `State.created` and `free` has no counterpart (R91). -/
inductive Command where
  | reset
  | getRegister (index : Nat)
  | setRegister (index : Nat) (value : Word)
  | getPc
  | setPc (value : Word)
  | step
  /-- R92: "currently a no-op"; the sink the call names is outside the block. -/
  | setDebugLevel (level : Nat)
  deriving DecidableEq, Repr

/-- What a command returns: exactly one status (R93), and a value from the two `get` commands that succeed. -/
structure Response where
  status : Status
  value : Option Word
  deriving DecidableEq, Repr

/-- A response with a status alone. -/
def Response.of (st : Status) : Response := { status := st, value := none }

/-- `reset()` (R83, R109, R112): the zeroed state; the collaborator and the parameters are untouched. -/
def resetCommand (s : State) : State := State.created s.params s.mem

/-- `get_register(index)` (R84). -/
def getRegister (index : Nat) (s : State) : Response :=
  if h : index < 32 then { status := .success, value := some (s.readReg ⟨index, h⟩) }
  else Response.of .invalidArgument

/-- `set_register(index, value)` (R85). -/
def setRegister (index : Nat) (value : Word) (s : State) : Response × State :=
  if h : index < 32 then (Response.of .success, s.writeReg ⟨index, h⟩ value)
  else (Response.of .invalidArgument, s)

/-- `set_pc(value)`: any 32-bit value, no check (R87). -/
def setPc (value : Word) (s : State) : State := { s with pc := value }

/-- One command, an indivisible transaction (R82). -/
def runCommand (c : Command) (s : State) : Host.Outcome (Response × State) Fault Refusal :=
  match c with
  | .reset => .next (Response.of .success, resetCommand s)
  | .getRegister index => .next (getRegister index s, s)
  | .setRegister index value => .next (setRegister index value s)
  | .getPc => .next ({ status := .success, value := some s.pc }, s)
  | .setPc value => .next (Response.of .success, setPc value s)
  | .step =>
    match Sys2Proof.Machine.step s with
    | .next t => .next (Response.of t.status, t)
    | .fault r => .fault r
    | .refused r => .refused r
  | .setDebugLevel _ => .next (Response.of .success, s)

/-- Commands one after another, each beginning when the one before has ended (R82); the responses in order. -/
def runCommands : List Command → State → Host.Outcome (List Response × State) Fault Refusal
  | [], s => .next ([], s)
  | c :: rest, s =>
    match runCommand c s with
    | .next (r, t) =>
      match runCommands rest t with
      | .next (rs, u) => .next (r :: rs, u)
      | .fault e => .fault e
      | .refused e => .refused e
    | .fault e => .fault e
    | .refused e => .refused e

/-- The spec's optional numbering of the statuses (R99, D12). -/
def Status.code : Status → Nat
  | .success => 0
  | .invalidArgument => 1
  | .invalidInstruction => 2
  | .arithmeticOverflow => 3
  | .memFailure c => 4 + c

end Sys2Proof.Machine
end

