-- ==== Sys2Proof/Safety.lean ====
section
/-! DEFINITION. The terms in which claims are made: the invariant, what an instruction leaves unchanged, and what a
run without an exception is. -/

namespace Sys2Proof.Machine

/-- A status that `step` can report: it never reports InvalidArgument (40_step_cycle.md R66). -/
def Status.fromStep : Status → Bool
  | .success => true
  | .invalidArgument => false
  | .invalidInstruction => true
  | .arithmeticOverflow => true
  | .memFailure _ => true

/-- The architectural exceptions of the dispatch phase (00_scope.md glossary; R96, R97). -/
def Status.isException : Status → Bool
  | .success => false
  | .invalidArgument => false
  | .invalidInstruction => true
  | .arithmeticOverflow => true
  | .memFailure _ => false

/-- The invariant of the machine: the memory has its canonical form, the reported status is one that a step can
report, and the program counter keeps its residue `k` modulo 4. -/
structure State.Inv (k : Nat) (s : State) : Prop where
  memory : s.mem.wf
  status : s.status.fromStep = true
  pc : s.pc.toNat % 4 = k

/-- Every byte of memory reads as before, and the collaborator's policy and ready answers are the same. -/
def SameMemory (s t : State) : Prop :=
  (∀ a, t.mem.readByte a = s.mem.readByte a) ∧ t.mem.policy = s.mem.policy ∧ t.mem.answers = s.mem.answers

/-- Nothing but the status differs: no register is written, the program counter and the memory are as before. -/
def NothingWritten (s t : State) : Prop :=
  t.regs = s.regs ∧ t.pc = s.pc ∧ SameMemory s t ∧ t.params = s.params

/-- The instruction wrote `v` to `x[rd]` and nothing else: `x[rd]` reads `v`, or is discarded where it is the
hardwired register (R13), every other slot, the program counter and the memory are as before. -/
def OnlyRegisterWritten (s t : State) (rd : RegIdx) (v : Word) : Prop :=
  (s.hardwired rd → t.regs = s.regs) ∧ (¬ s.hardwired rd → t.readReg rd = v) ∧
    (∀ i, i ≠ rd → t.regs.get i = s.regs.get i) ∧ t.pc = s.pc ∧ SameMemory s t ∧ t.params = s.params

/-- The instruction completes: `exec` answers a next state with Success in which `v` was written to `x[rd]` and
nothing else changed. -/
def CompletesWith (i : Instr) (s : State) (rd : RegIdx) (v : Word) : Prop :=
  ∃ t, exec i s = .next t ∧ t.status = .success ∧ OnlyRegisterWritten s t rd v

/-- The instruction raises ArithmeticOverflow: `exec` answers a next state with that status in which nothing was
written. -/
def RaisesOverflow (i : Instr) (s : State) : Prop :=
  ∃ t, exec i s = .next t ∧ t.status = .arithmeticOverflow ∧ NothingWritten s t

/-- The instruction `mk` is encoded by opcode 0 and the function code `funct`, its operands being the word's fields,
whatever the shift amount (R38, R44). -/
def EncodedBy (mk : RegIdx → RegIdx → RegIdx → Nat → Instr) (funct : Nat) : Prop :=
  ∀ w : Word,
    decode w = .ok (mk (regField 21 w) (regField 16 w) (regField 11 w) (shamtOf w)) ↔
      w.toNat / 2 ^ 26 = 0 ∧ w.toNat % 2 ^ 6 = funct

/-- The overflow test of R68 in its own words, on the source `a`, the effective operand `e` and the result `r`. -/
def OverflowHolds (d : OvfDetect) (a e r : Word) : Prop :=
  match d with
  | .strict => (a.toInt > 0 ∧ e.toInt > 0 ∧ r.toInt < 0) ∨ (a.toInt < 0 ∧ e.toInt < 0 ∧ r.toInt > 0)
  | .signbit => a.msb = e.msb ∧ r.msb ≠ a.msb

/-- The signed integer is one that 32 bits hold. -/
def fitsS32 (n : Int) : Prop := -2 ^ 31 ≤ n ∧ n ≤ 2 ^ 31 - 1

/-- The step's read is answered with four bytes that form the word `w` in the machine's byte order; `m` is the
collaborator after the read (R26, R27). -/
def Fetches (s : State) (w : Word) (m : Memory) : Prop :=
  ∃ b0 b1 b2 b3, s.mem.read s.pc = (.ok b0 b1 b2 b3, m) ∧ wordOfBytes s.params.byteOrder b0 b1 b2 b3 = w

/-- The word is one of the seven of R44: opcode 0 and a function code in `0x20 .. 0x26`. -/
def LegalWord (w : Word) : Prop := w.toNat / 2 ^ 26 = 0 ∧ 0x20 ≤ w.toNat % 2 ^ 6 ∧ w.toNat % 2 ^ 6 ≤ 0x26

/-- The overflow test of ADD and SUB holds on the operands the instruction reads (R69, R71, R97); no other instruction
has one. -/
def Overflows (s : State) : Instr → Prop
  | .add rs rt _ _ =>
    OverflowHolds s.params.ovfDetect (s.readReg rs) (s.readReg rt) (s.readReg rs + s.readReg rt)
  | .addu _ _ _ _ => False
  | .sub rs rt _ _ =>
    OverflowHolds s.params.ovfDetect (s.readReg rs) (-s.readReg rt) (s.readReg rs - s.readReg rt)
  | .subu _ _ _ _ => False
  | .and _ _ _ _ => False
  | .or _ _ _ _ => False
  | .xor _ _ _ _ => False

/-- A safe step: it answers a next state with Success. R9 counts every other status as a fault of the block, although
the state after it is defined; the model keeps that state and the status in it (log 2). -/
def State.stepSucceeds (s : State) : Prop := ∃ t, step s = .next t ∧ t.status = .success

/-- The program counter after a step that dispatched a word and reports `st` (R57). -/
def pcAfterDispatch (s : State) (st : Status) : Word :=
  if st = .success ∨ s.params.pcAdvanceOnException = true then s.pc + 4 else s.pc

/-- None of the answers the collaborator has ready is silence (R118's assumption, as far as a step can meet it). -/
def State.memoryAnswers (s : State) : Prop := Answer.silent ∉ s.mem.answers

end Sys2Proof.Machine
end

