-- ==== Sys2Proof/Certificates/Slice0/Obligations.lean ====
section
/-! DEFINITION. The statements for the provers. Each docstring names the rule of spec/ it formalises. -/

open Sys2Proof Sys2Proof.Machine

/-! ### Encoding -/

/-- Words written out from the field tables of R38 and R44 (95_test_vectors.md B1, B2) decode to their instructions. -/
def Obligations.SampleWordsDecode : Prop :=
  decode 0x00221820#32 = .ok (.add 1 2 3 0) ∧ decode 0x00221821#32 = .ok (.addu 1 2 3 0) ∧
    decode 0x00223022#32 = .ok (.sub 1 2 6 0) ∧ decode 0x00221823#32 = .ok (.subu 1 2 3 0) ∧
    decode 0x00853824#32 = .ok (.and 4 5 7 0) ∧ decode 0x00221825#32 = .ok (.or 1 2 3 0) ∧
    decode 0x03FFF826#32 = .ok (.xor 31 31 31 0) ∧ decode 0x00221FE0#32 = .ok (.add 1 2 3 31) ∧
    decodeBytes .big [0x01#8, 0x09#8, 0x50#8, 0x20#8] = .ok (.add 8 9 10 0, []) ∧
    decodeBytes .little [0x20#8, 0x50#8, 0x09#8, 0x01#8] = .ok (.add 8 9 10 0, [])

/-- Decoding the bytes of a well-formed instruction gives it back, in either byte order and whatever follows. -/
def Obligations.DecodeOfEncodedBytes : Prop :=
  ∀ (o : ByteOrder) (i : Instr) (rest : List Byte),
    i.WellFormed → decodeBytes o (encodeBytes o i ++ rest) = .ok (i, rest)

/-- A word that decodes is the word of its instruction: no bit is lost, and the instruction is well-formed. -/
def Obligations.EncodeOfDecodedWord : Prop :=
  ∀ (w : Word) (i : Instr), decode w = .ok i → i.WellFormed ∧ encode i = w

/-- R44: under the mask 0xFC00003F each instruction is its function code, and bits 25:6 are its fields. -/
def Obligations.MaskAndMatchSelectInstruction : Prop :=
  ∀ w : Word,
    (w &&& 0xFC00003F#32 = 0x20#32 ↔
        decode w = .ok (.add (regField 21 w) (regField 16 w) (regField 11 w) (shamtOf w))) ∧
      (w &&& 0xFC00003F#32 = 0x21#32 ↔
        decode w = .ok (.addu (regField 21 w) (regField 16 w) (regField 11 w) (shamtOf w))) ∧
      (w &&& 0xFC00003F#32 = 0x22#32 ↔
        decode w = .ok (.sub (regField 21 w) (regField 16 w) (regField 11 w) (shamtOf w))) ∧
      (w &&& 0xFC00003F#32 = 0x23#32 ↔
        decode w = .ok (.subu (regField 21 w) (regField 16 w) (regField 11 w) (shamtOf w))) ∧
      (w &&& 0xFC00003F#32 = 0x24#32 ↔
        decode w = .ok (.and (regField 21 w) (regField 16 w) (regField 11 w) (shamtOf w))) ∧
      (w &&& 0xFC00003F#32 = 0x25#32 ↔
        decode w = .ok (.or (regField 21 w) (regField 16 w) (regField 11 w) (shamtOf w))) ∧
      (w &&& 0xFC00003F#32 = 0x26#32 ↔
        decode w = .ok (.xor (regField 21 w) (regField 16 w) (regField 11 w) (shamtOf w)))

/-- R47: the words that decode are the legal ones, and the illegal ones are rejected under the name of their class. -/
def Obligations.IllegalWordsRejectedByClass : Prop :=
  ∀ w : Word,
    ((∃ i, decode w = .ok i) ↔ LegalWord w) ∧
      (w.toNat / 2 ^ 26 = 0 → ¬ LegalWord w → decode w = .error (.unknownFunction (functOf w))) ∧
      (1 ≤ w.toNat / 2 ^ 26 → w.toNat / 2 ^ 26 ≤ 3 → decode w = .error (.immediateFormat (opcodeOf w))) ∧
      (4 ≤ w.toNat / 2 ^ 26 → decode w = .error (.jumpFormat (opcodeOf w)))

/-- R41: the family is decided by bits 31:26 alone: 0, 1 to 3, 4 and above. -/
def Obligations.ClassifierSplitsByOpcode : Prop :=
  ∀ w : Word,
    (classify w = .register ↔ w.toNat / 2 ^ 26 = 0) ∧
      (classify w = .immediate ↔ 1 ≤ w.toNat / 2 ^ 26 ∧ w.toNat / 2 ^ 26 ≤ 3) ∧
      (classify w = .jump ↔ 4 ≤ w.toNat / 2 ^ 26)

/-- R38, R39, R40: which bits each field of the three formats is. -/
def Obligations.FieldsAreBitRanges : Prop :=
  ∀ w : Word,
    match fieldsOf w with
    | .register rs rt rd shamt funct =>
      rs.val = w.toNat / 2 ^ 21 % 2 ^ 5 ∧ rt.val = w.toNat / 2 ^ 16 % 2 ^ 5 ∧
        rd.val = w.toNat / 2 ^ 11 % 2 ^ 5 ∧ shamt = w.toNat / 2 ^ 6 % 2 ^ 5 ∧
        funct.toNat = w.toNat % 2 ^ 6
    | .immediate opcode rs rdI imm16 =>
      opcode.toNat = w.toNat / 2 ^ 26 ∧ rs.val = w.toNat / 2 ^ 21 % 2 ^ 5 ∧
        rdI.val = w.toNat / 2 ^ 16 % 2 ^ 5 ∧ imm16.toNat = w.toNat % 2 ^ 16
    | .jump opcode addr26 => opcode.toNat = w.toNat / 2 ^ 26 ∧ addr26.toNat = w.toNat % 2 ^ 26

/-- Which byte supplies which bits in each byte order, and no command changes the order (R27). That the reset state has
the order `big` is the model's choice, the spec's own default (log 3, DESIGN CHOICE; D1): the source is silent on it. -/
def Obligations.ByteOrderFormsWord : Prop :=
  (∀ b0 b1 b2 b3 : Byte,
      (wordOfBytes .big b0 b1 b2 b3).toNat =
          b0.toNat * 2 ^ 24 + b1.toNat * 2 ^ 16 + b2.toNat * 2 ^ 8 + b3.toNat ∧
        (wordOfBytes .little b0 b1 b2 b3).toNat =
          b3.toNat * 2 ^ 24 + b2.toNat * 2 ^ 16 + b1.toNat * 2 ^ 8 + b0.toNat) ∧
    (∀ (c : Command) (s t : State) (r : Response),
      runCommand c s = .next (r, t) → t.params.byteOrder = s.params.byteOrder) ∧
    State.reset.params.byteOrder = .big

/-- Two words that differ in bits 10:6 alone do the same and report the same. The whole statement is an inference, which
the spec marks as its own decision D11 (R46; log 9, DEDUCED). -/
def Obligations.ShiftAmountIgnored : Prop :=
  ∀ (w w' : Word) (s : State),
    w &&& 0xFFFFF83F#32 = w' &&& 0xFFFFF83F#32 → dispatchWord w s = dispatchWord w' s

/-- The routing of register-format words by the two parts of the function code (R43, R56), and the operation each part
selects with its frame (R67, R77). That bit 1 of the function code is `sub` and bit 0 is `uns` is the spec's decision D8
(R44; log 8, DEDUCED). -/
def Obligations.DispatchRoutesByFunctionCode : Prop :=
  ∀ (w : Word) (s : State),
    w.toNat / 2 ^ 26 = 0 →
      (w.toNat / 2 ^ 4 % 4 = 2 → w.toNat % 2 ^ 4 < 4 →
          dispatchWord w s =
            arithmetic (w.getLsbD 1) (w.getLsbD 0) (regField 21 w) (regField 16 w) (regField 11 w) s) ∧
        (w.toNat / 2 ^ 4 % 4 = 2 → 4 ≤ w.toNat % 2 ^ 4 → w.toNat % 2 ^ 4 ≤ 6 →
          ∃ t v,
            dispatchWord w s = .next t ∧ t.status = .success ∧ OnlyRegisterWritten s t (regField 11 w) v ∧
              v =
                if w.toNat % 2 ^ 4 = 4 then s.readReg (regField 21 w) &&& s.readReg (regField 16 w)
                else if w.toNat % 2 ^ 4 = 5 then s.readReg (regField 21 w) ||| s.readReg (regField 16 w)
                else s.readReg (regField 21 w) ^^^ s.readReg (regField 16 w)) ∧
        (w.toNat / 2 ^ 4 % 4 ≠ 2 ∨ 7 ≤ w.toNat % 2 ^ 4 →
          ∃ t, dispatchWord w s = .next t ∧ t.status = .invalidInstruction ∧ NothingWritten s t)

/-! ### The arithmetic unit -/

/-- R69: ADD writes the wrapped sum and nothing else when the overflow test does not hold, and raises
ArithmeticOverflow, writing nothing, when it does. -/
def Obligations.AddWritesSumOrOverflows : Prop :=
  EncodedBy Instr.add 0x20 ∧
    ∀ (rs rt rd : RegIdx) (shamt : Nat) (s : State) (r : Word),
      r = wrap32 (u32 (s.readReg rs) + u32 (s.readReg rt)) →
        (¬ OverflowHolds s.params.ovfDetect (s.readReg rs) (s.readReg rt) r →
            CompletesWith (.add rs rt rd shamt) s rd r) ∧
          (OverflowHolds s.params.ovfDetect (s.readReg rs) (s.readReg rt) r →
            RaisesOverflow (.add rs rt rd shamt) s)

/-- R70: ADDU writes the wrapped sum and nothing else, always. -/
def Obligations.AdduWritesWrappedSum : Prop :=
  EncodedBy Instr.addu 0x21 ∧
    ∀ (rs rt rd : RegIdx) (shamt : Nat) (s : State),
      CompletesWith (.addu rs rt rd shamt) s rd (wrap32 (u32 (s.readReg rs) + u32 (s.readReg rt)))

/-- R71: SUB writes the wrapped difference and nothing else when the test does not hold on the source, the negated
target and the result, and raises ArithmeticOverflow, writing nothing, when it does. -/
def Obligations.SubWritesDifferenceOrOverflows : Prop :=
  EncodedBy Instr.sub 0x22 ∧
    ∀ (rs rt rd : RegIdx) (shamt : Nat) (s : State) (e r : Word),
      e = wrap32 (0 - u32 (s.readReg rt)) →
        r = wrap32 (u32 (s.readReg rs) - u32 (s.readReg rt)) →
          (¬ OverflowHolds s.params.ovfDetect (s.readReg rs) e r → CompletesWith (.sub rs rt rd shamt) s rd r) ∧
            (OverflowHolds s.params.ovfDetect (s.readReg rs) e r → RaisesOverflow (.sub rs rt rd shamt) s)

/-- R72: SUBU writes the wrapped difference and nothing else, always. -/
def Obligations.SubuWritesWrappedDifference : Prop :=
  EncodedBy Instr.subu 0x23 ∧
    ∀ (rs rt rd : RegIdx) (shamt : Nat) (s : State),
      CompletesWith (.subu rs rt rd shamt) s rd (wrap32 (u32 (s.readReg rs) - u32 (s.readReg rt)))

/-- R68: the model's test is the one of each parameter value, and on a sum the two differ on one input only. -/
def Obligations.OverflowTestsDifferOnOneInput : Prop :=
  (∀ (d : OvfDetect) (a e r : Word), overflow d a e r = true ↔ OverflowHolds d a e r) ∧
    ∀ a e : Word,
      ((overflow .strict a e (a + e) ≠ overflow .signbit a e (a + e)) ↔ a = int32Min ∧ e = int32Min) ∧
        overflow .strict int32Min int32Min (int32Min + int32Min) = false ∧
        overflow .signbit int32Min int32Min (int32Min + int32Min) = true

/-- The table of 41_arithmetic.md's rule on where the test differs from the mathematical one, for ADD: it is exact
but for the one pair, on which `strict` writes 0 and `signbit` raises. -/
def Obligations.AddOverflowExactButOnePair : Prop :=
  ∀ (rs rt rd : RegIdx) (shamt : Nat) (s : State) (a b : Word),
    a = s.readReg rs → b = s.readReg rt →
      (¬ (a = int32Min ∧ b = int32Min) →
          (RaisesOverflow (.add rs rt rd shamt) s ↔ ¬ fitsS32 (a.toInt + b.toInt))) ∧
        (a = int32Min → b = int32Min → s.params.ovfDetect = .strict →
          CompletesWith (.add rs rt rd shamt) s rd 0) ∧
        (a = int32Min → b = int32Min → s.params.ovfDetect = .signbit →
          RaisesOverflow (.add rs rt rd shamt) s)

/-- The same table for SUB: exact unless the target is 0x80000000, and then its four rows. Those four rows rest on the
test looking at the negated target with the source as minuend (D7; log 7, DEDUCED). -/
def Obligations.SubOverflowTable : Prop :=
  ∀ (rs rt rd : RegIdx) (shamt : Nat) (s : State) (a b : Word),
    a = s.readReg rs → b = s.readReg rt →
      (b ≠ int32Min →
          (RaisesOverflow (.sub rs rt rd shamt) s ↔ ¬ fitsS32 (a.toInt - b.toInt)) ∧
            (fitsS32 (a.toInt - b.toInt) → CompletesWith (.sub rs rt rd shamt) s rd (a - b))) ∧
        (b = int32Min → 0 ≤ a.toInt → CompletesWith (.sub rs rt rd shamt) s rd (a ^^^ int32Min)) ∧
        (b = int32Min → a.toInt < 0 → a ≠ int32Min → RaisesOverflow (.sub rs rt rd shamt) s) ∧
        (b = int32Min → a = int32Min → s.params.ovfDetect = .strict →
          CompletesWith (.sub rs rt rd shamt) s rd 0) ∧
        (b = int32Min → a = int32Min → s.params.ovfDetect = .signbit →
          RaisesOverflow (.sub rs rt rd shamt) s)

/-- R73's two laws: a trapping form that succeeds did what the non-trapping form does, and ADD is commutative in its
result and in its test. -/
def Obligations.TrappingFormsAgreeWithNonTrapping : Prop :=
  ∀ (rs rt rd : RegIdx) (shamt : Nat) (s t : State),
    (exec (.add rs rt rd shamt) s = .next t → t.status = .success → exec (.addu rs rt rd shamt) s = .next t) ∧
      (exec (.sub rs rt rd shamt) s = .next t → t.status = .success →
        exec (.subu rs rt rd shamt) s = .next t) ∧
      exec (.add rs rt rd shamt) s = exec (.add rt rs rd shamt) s

/-! ### The logic unit -/

/-- R78: bit `i` of AND's result is 1 iff both bits are, nothing else is written, and it always completes. -/
def Obligations.AndWritesBitwiseAnd : Prop :=
  EncodedBy Instr.and 0x24 ∧
    ∀ (rs rt rd : RegIdx) (shamt : Nat) (s : State),
      ∃ v : Word,
        CompletesWith (.and rs rt rd shamt) s rd v ∧
          ∀ i < 32, v.getLsbD i = true ↔
            (s.readReg rs).getLsbD i = true ∧ (s.readReg rt).getLsbD i = true

/-- R79: bit `i` of OR's result is 1 iff one of the bits is. -/
def Obligations.OrWritesBitwiseOr : Prop :=
  EncodedBy Instr.or 0x25 ∧
    ∀ (rs rt rd : RegIdx) (shamt : Nat) (s : State),
      ∃ v : Word,
        CompletesWith (.or rs rt rd shamt) s rd v ∧
          ∀ i < 32, v.getLsbD i = true ↔
            (s.readReg rs).getLsbD i = true ∨ (s.readReg rt).getLsbD i = true

/-- R80: bit `i` of XOR's result is 1 iff the bits differ. -/
def Obligations.XorWritesBitwiseXor : Prop :=
  EncodedBy Instr.xor 0x26 ∧
    ∀ (rs rt rd : RegIdx) (shamt : Nat) (s : State),
      ∃ v : Word,
        CompletesWith (.xor rs rt rd shamt) s rd v ∧
          ∀ i < 32, v.getLsbD i = true ↔ (s.readReg rs).getLsbD i ≠ (s.readReg rt).getLsbD i

/-- The same register in both source roles: SUBU and XOR clear, SUB clears under the strict test, AND and OR copy. -/
def Obligations.SameSourceTwice : Prop :=
  ∀ (rs rd : RegIdx) (shamt : Nat) (s : State),
    CompletesWith (.subu rs rs rd shamt) s rd 0 ∧ CompletesWith (.xor rs rs rd shamt) s rd 0 ∧
      (s.params.ovfDetect = .strict → CompletesWith (.sub rs rs rd shamt) s rd 0) ∧
      CompletesWith (.and rs rs rd shamt) s rd (s.readReg rs) ∧
      CompletesWith (.or rs rs rd shamt) s rd (s.readReg rs)

/-! ### Registers -/

/-- A register reads what was last written to it, a write touches nothing else, and a hardwired register 0 reads zero
(R12, R13). That a write to a hardwired register 0 is discarded without any effect is the spec's reading (D2, D21; log 17,
DEDUCED). -/
def Obligations.RegisterReadsLastWrite : Prop :=
  ∀ (s : State) (i : RegIdx) (v : Word),
    (s.hardwired i → s.readReg i = 0 ∧ s.writeReg i v = s) ∧
      (¬ s.hardwired i → (s.writeReg i v).readReg i = v) ∧
      (∀ j, j ≠ i → (s.writeReg i v).readReg j = s.readReg j) ∧
      (s.writeReg i v).pc = s.pc ∧ (s.writeReg i v).mem = s.mem ∧ (s.writeReg i v).params = s.params

/-! ### The step -/

/-- A step runs the decoded instruction and then moves the program counter (R53, R57). -/
def Obligations.StepRunsDecodedInstruction : Prop :=
  ∀ (s t : State) (w : Word) (m : Memory) (i : Instr),
    Fetches s w m → decode w = .ok i → exec i { s with mem := m } = .next t →
      step s = .next { t with pc := pcAfterDispatch s t.status }

/-- How plain bytes answer a fetch. The byte store and its policy are the model's form of the collaborator
(log 11, 12): with no other answer ready and the address served, four bytes that are there form the word, and the read
fails with the policy's code when one is missing. -/
def Obligations.PlainBytesAnswerFetch : Prop :=
  ∀ s : State,
    s.mem.answers = [] → refuses s.mem.policy s.pc 4 = none →
      (∀ b0 b1 b2 b3 : Byte,
          s.mem.readByte (byteAddr s.mem.policy s.pc 0) = some b0 →
            s.mem.readByte (byteAddr s.mem.policy s.pc 1) = some b1 →
              s.mem.readByte (byteAddr s.mem.policy s.pc 2) = some b2 →
                s.mem.readByte (byteAddr s.mem.policy s.pc 3) = some b3 →
                  Fetches s (wordOfBytes s.params.byteOrder b0 b1 b2 b3) s.mem) ∧
        ((∃ k < 4, s.mem.readByte (byteAddr s.mem.policy s.pc k) = none) →
          s.mem.read s.pc = (.fail s.mem.policy.absent, s.mem))

/-- R60, R61: an illegal word gives InvalidInstruction, corrupts no register, and the program counter follows R57. It reads
no register: with any other register contents the step does the same. -/
def Obligations.IllegalWordStepReportsInvalidInstruction : Prop :=
  ∀ (s : State) (w : Word) (m : Memory),
    Fetches s w m → ¬ LegalWord w →
      ∃ t,
        step s = .next t ∧ t.status = .invalidInstruction ∧ t.regs = s.regs ∧
          t.pc = (if s.params.pcAdvanceOnException = true then s.pc + 4 else s.pc) ∧
          (∀ a, t.mem.readByte a = s.mem.readByte a) ∧ t.params = s.params ∧
          ∀ regs, step { s with regs := regs } = .next { t with regs := regs }

/-- The program counter after a dispatch, for each dispatch result (R57; D3 for the results other than Success). That it
wraps modulo 2^32 is the spec's reading of "exactly 4 from any starting value" (C7, D10; log 23, DEDUCED). -/
def Obligations.ProgramCounterAfterDispatch : Prop :=
  ∀ (s t : State),
    step s = .next t →
      (t.status = .success → t.pc.toNat = (s.pc.toNat + 4) % 2 ^ 32) ∧
        (t.status = .invalidInstruction ∨ t.status = .arithmeticOverflow →
          (s.params.pcAdvanceOnException = true → t.pc.toNat = (s.pc.toNat + 4) % 2 ^ 32) ∧
            (s.params.pcAdvanceOnException = false → t.pc = s.pc))

/-- A fetch that fails ends the step with the collaborator's status (R59). That no state of the block changes, the program
counter included, whatever the exception policy, is the spec's reading where the source does not say so (D4; log 10,
DEDUCED). -/
def Obligations.FailedFetchPropagatesUnchanged : Prop :=
  ∀ (s : State) (m : Memory) (c : Nat),
    s.mem.read s.pc = (.fail c, m) →
      ∃ t,
        step s = .next t ∧ t.status = .memFailure c ∧ t.regs = s.regs ∧ t.pc = s.pc ∧ t.params = s.params ∧
          t.mem = m ∧ ∀ a, t.mem.readByte a = s.mem.readByte a

/-- R65, R14: a step that does not report Success writes no register, and one that does writes at most the
destination of the word it fetched. -/
def Obligations.StepWritesAtMostDestination : Prop :=
  ∀ (s t : State),
    step s = .next t →
      (t.status ≠ .success → t.regs = s.regs) ∧
        (t.status = .success →
          ∃ w m, Fetches s w m ∧ LegalWord w ∧ ∀ j, j ≠ regField 11 w → t.regs.get j = s.regs.get j)

/-- R66: the status is the fetch's when the fetch failed and otherwise the dispatch result, one of three; it is never
InvalidArgument. -/
def Obligations.StepStatusIsFetchOrDispatch : Prop :=
  ∀ (s t : State),
    step s = .next t →
      ((∃ c m, s.mem.read s.pc = (.fail c, m) ∧ t.status = .memFailure c) ∨
          ∃ w m u,
            Fetches s w m ∧ dispatchWord w { s with mem := m } = .next u ∧ t.status = u.status ∧
              (u.status = .success ∨ u.status = .invalidInstruction ∨ u.status = .arithmeticOverflow)) ∧
        t.status ≠ .invalidArgument

/-- Exactly when a command reports Success (R94): for `step`, when the fetch succeeded, the word was one of the seven and,
for ADD and SUB, the overflow test did not hold. That `get_register` and `set_register` check the index is the spec's
decision D5 (log 16, DEDUCED), and that `set_debug_level` succeeds is the model's choice (R92, D20; log 18). -/
def Obligations.SuccessReportedExactlyWhen : Prop :=
  (∀ s : State,
      s.stepSucceeds ↔
        ∃ w m i, Fetches s w m ∧ LegalWord w ∧ decode w = .ok i ∧ ¬ Overflows s i) ∧
    (∀ (s t : State) (r : Response), runCommand .step s = .next (r, t) → (r.status = .success ↔ s.stepSucceeds)) ∧
    ∀ (c : Command) (s t : State) (r : Response),
      runCommand c s = .next (r, t) → c ≠ .step →
        (r.status = .success ↔ ∀ n, (c = .getRegister n ∨ ∃ v, c = .setRegister n v) → n < 32)

/-- The one stop of the machine is the collaborator's silence (R118; the fault is the model's form of it, log 14), and
nothing is refused (R9). -/
def Obligations.StepStopsOnlyOnSilence : Prop :=
  ∀ s : State,
    (∀ r, step s = .fault r ↔ ∃ m, s.mem.read s.pc = (.silent, m)) ∧
      (∀ r, step s ≠ .refused r) ∧ ((∃ t, step s = .next t) ↔ ∀ m, s.mem.read s.pc ≠ (.silent, m))

/-- Every instruction answers a next state from every state, with Success or ArithmeticOverflow, only ADD and SUB
with the latter, and keeps the program counter and the memory (R15, R97). -/
def Obligations.ExecAlwaysAnswers : Prop :=
  ∀ (i : Instr) (s : State),
    ∃ t,
      exec i s = .next t ∧ (t.status = .success ∨ t.status = .arithmeticOverflow) ∧
        (t.status = .arithmeticOverflow → functCode i = 0x20#6 ∨ functCode i = 0x22#6) ∧ t.pc = s.pc ∧
        SameMemory s t ∧ t.params = s.params

/-- A step writes no memory and makes exactly one read (R25, R26, R30): every byte reads as before, and of the answers
the collaborator has ready exactly the oldest is taken. -/
def Obligations.StepReadsOnceWritesNoMemory : Prop :=
  ∀ (s t : State),
    step s = .next t →
      (∀ a, t.mem.readByte a = s.mem.readByte a) ∧ t.mem.policy = s.mem.policy ∧
        t.mem.answers = s.mem.answers.tail

/-- R22: the status reported is not looked at by any later command. Stated of the model's field that holds it
(log 2): whatever it holds, a command responds and leaves registers, program counter and memory alike. -/
def Obligations.CommandsIgnoreReportedStatus : Prop :=
  ∀ (c : Command) (s : State) (st : Status),
    match runCommand c s with
    | .next (r, t) =>
      ∃ t',
        runCommand c { s with status := st } = .next (r, t') ∧ t'.regs = t.regs ∧ t'.pc = t.pc ∧
          t'.mem = t.mem ∧ t'.params = t.params
    | .fault e => runCommand c { s with status := st } = .fault e
    | .refused e => runCommand c { s with status := st } = .refused e

/-- R104: without the advance, a step that raised an exception raises the same one again, for ever, if nothing else
changes: any number of further steps leaves the same state. -/
def Obligations.ExceptionRepeatsWithoutAdvance : Prop :=
  ∀ (s t : State) (n : Nat),
    s.params.pcAdvanceOnException = false → s.mem.answers = [] → step s = .next t →
      t.status.isException = true → Host.Core.run Sys2Proof.core (n + 1) s = .next t

/-- R118 with D17: as long as the collaborator answers, any number of steps runs, no status stops the machine, and
the bytes and the parameters are as at the start. -/
def Obligations.RunNeverStops : Prop :=
  ∀ (n : Nat) (s : State),
    s.memoryAnswers →
      ∃ t : State,
        Host.Core.run Sys2Proof.core n s = .next t ∧ (∀ a, t.mem.readByte a = s.mem.readByte a) ∧
          t.params = s.params ∧ t.mem.answers = s.mem.answers.drop n

/-! ### The invariant -/

/-- The invariant holds after reset, with the program counter a multiple of 4. Two of its three parts rest on the model's
own choices: the status field's value at reset (log 24, DESIGN CHOICE) and the empty byte store (log 11, DESIGN CHOICE). -/
def Obligations.ResetHasInvariant : Prop := State.reset.Inv 0

/-- Every step keeps the invariant: the canonical form of the memory, a status a step can report, and the program
counter's residue modulo 4 (R28: "stays misaligned by the same amount"). -/
def Obligations.StepKeepsInvariant : Prop :=
  ∀ (k : Nat) (s t : State), s.Inv k → step s = .next t → t.Inv k

/-- No sequence of commands changes a byte, the collaborator's choices or the parameters (R17, R25, R112), and the
memory keeps its canonical form. -/
def Obligations.CommandsNeverChangeMemory : Prop :=
  ∀ (cs : List Command) (s t : State) (rs : List Response),
    runCommands cs s = .next (rs, t) →
      (∀ a, t.mem.readByte a = s.mem.readByte a) ∧ t.mem.policy = s.mem.policy ∧ t.params = s.params ∧
        rs.length = cs.length ∧ (s.mem.wf → t.mem.wf)

/-! ### Reset and the host commands -/

/-- R110: the reset state, that it is the state both ways into reset give (R109), and that the `reset` command changes
neither the parameters nor the memory. -/
def Obligations.ResetStateIsZero : Prop :=
  (∀ i : RegIdx, State.reset.readReg i = 0 ∧ State.reset.regs.get i = 0) ∧ State.reset.pc = 0 ∧
    resetCommand State.reset = State.reset ∧
    ∀ s : State,
      (resetCommand s).regs = State.reset.regs ∧ (resetCommand s).pc = State.reset.pc ∧
        (resetCommand s).params = s.params ∧ (resetCommand s).mem = s.mem

/-- The parameters' defaults of R5, as the model's reset state takes them (log 3 to 6). -/
def Obligations.ResetParametersAreDefaults : Prop :=
  State.reset.params.byteOrder = .big ∧ State.reset.params.r0Hardwired = false ∧
    State.reset.params.pcAdvanceOnException = true ∧ State.reset.params.ovfDetect = .strict

/-- R83: `reset` zeroes every register and the program counter for any prior state, returns Success, and does not
touch the memory. -/
def Obligations.ResetCommandZeroesAll : Prop :=
  ∀ s : State,
    ∃ t,
      runCommand .reset s = .next ({ status := .success, value := none }, t) ∧
        (∀ i : RegIdx, t.readReg i = 0 ∧ t.regs.get i = 0) ∧ t.pc = 0 ∧ t.mem = s.mem

/-- `get_register` (R84). That an index above 31 is answered with InvalidArgument is a check that the existing code does
not make and the spec enforces (D5; log 16, DEDUCED). -/
def Obligations.GetRegisterReturnsValue : Prop :=
  ∀ (n : Nat) (s : State),
    (∀ h : n < 32,
        runCommand (.getRegister n) s = .next ({ status := .success, value := some (s.readReg ⟨n, h⟩) }, s)) ∧
      (32 ≤ n → runCommand (.getRegister n) s = .next ({ status := .invalidArgument, value := none }, s))

/-- `set_register`, with the round trip through `get_register` (R85). Two clauses are the spec's decisions: InvalidArgument
for an index above 31 (D5; log 16, DEDUCED), and Success with the write discarded on a hardwired register 0 (D2, D21;
log 17, DEDUCED). -/
def Obligations.SetRegisterRoundTrip : Prop :=
  ∀ (n : Nat) (v : Word) (s : State),
    (∀ h : n < 32,
        ∃ t,
          runCommand (.setRegister n v) s = .next ({ status := .success, value := none }, t) ∧
            OnlyRegisterWritten s t ⟨n, h⟩ v ∧ t.status = s.status ∧
            runCommand (.getRegister n) t =
              .next ({ status := .success, value := some (if s.hardwired ⟨n, h⟩ then 0 else v) }, t) ∧
            (s.hardwired ⟨n, h⟩ → t = s)) ∧
      (32 ≤ n → runCommand (.setRegister n v) s = .next ({ status := .invalidArgument, value := none }, s))

/-- `set_pc` changes no register, `get_pc` returns the program counter and changes nothing (R86, R87). That `set_pc` takes
any value unchecked and the next step fetches from exactly that address is the spec's decision D9 (log 23, DEDUCED). -/
def Obligations.SetPcThenGetPc : Prop :=
  ∀ (v : Word) (s : State),
    runCommand .getPc s = .next ({ status := .success, value := some s.pc }, s) ∧
      ∃ t,
        runCommand (.setPc v) s = .next ({ status := .success, value := none }, t) ∧ t.pc = v ∧
          t.regs = s.regs ∧ t.mem = s.mem ∧ t.params = s.params ∧
          runCommand .getPc t = .next ({ status := .success, value := some v }, t) ∧
          ∀ (a : Answer) (m : Memory), s.mem.read v = (a, m) → step t = afterFetch { t with mem := m } a

/-- R88: the `step` command returns the status of the step; no other command touches the memory or returns anything
but Success and InvalidArgument. -/
def Obligations.OnlyStepUsesMemoryAndRaises : Prop :=
  ∀ (c : Command) (s t : State) (r : Response),
    runCommand c s = .next (r, t) →
      (c = .step → step s = .next t ∧ r = { status := t.status, value := none }) ∧
        (c ≠ .step → t.mem = s.mem ∧ (r.status = .success ∨ r.status = .invalidArgument))

/-- R95: InvalidArgument comes from a register index above 31 and from nothing else, and changes nothing. -/
def Obligations.InvalidArgumentOnlyForBadIndex : Prop :=
  ∀ (c : Command) (s t : State) (r : Response),
    runCommand c s = .next (r, t) →
      (r.status = .invalidArgument ↔ ∃ n, 32 ≤ n ∧ (c = .getRegister n ∨ ∃ v, c = .setRegister n v)) ∧
        (r.status = .invalidArgument → t = s ∧ r.value = none)

/-- R92: `set_debug_level` does nothing and returns Success (the status is the model's choice, log 18). -/
def Obligations.DebugLevelDoesNothing : Prop :=
  ∀ (n : Nat) (s : State),
    runCommand (.setDebugLevel n) s = .next ({ status := .success, value := none }, s)

/-- The optional numbering of the statuses (R99) gives different statuses different numbers. -/
def Obligations.StatusCodesDiffer : Prop := ∀ a b : Status, a.code = b.code → a = b

/-! ### Placing a program -/

/-- The write port, which no step drives (log 15): after a write that succeeds each byte is at its address, every other
address reads as before, and the canonical form is kept. -/
def Obligations.WritePortStoresBytes : Prop :=
  ∀ (m m' : Memory) (addr : Word) (bytes : List Byte),
    m.wf → bytes.length ≤ 2 ^ 32 → m.write addr bytes = (.success, m') →
      (∀ (k : Nat) (h : k < bytes.length), m'.readByte (byteAddr m.policy addr k) = some bytes[k]) ∧
        (∀ a, (∀ k < bytes.length, byteAddr m.policy addr k ≠ a) → m'.readByte a = m.readByte a) ∧ m'.wf

/-- A word placed for the next step is the word the next step fetches, and nothing of the block changes (log 20). -/
def Obligations.PlacedWordIsFetchedNext : Prop :=
  ∀ (s : State) (w : Word),
    s.mem.wf →
      Fetches (s.withFetchWord 32 w.toNat) w (s.withFetchWord 32 w.toNat).mem ∧
        (s.withFetchWord 32 w.toNat).regs = s.regs ∧ (s.withFetchWord 32 w.toNat).pc = s.pc ∧
        (s.withFetchWord 32 w.toNat).params = s.params ∧ (s.withFetchWord 32 w.toNat).mem.wf
end

