-- ==== Sys2Proof/Laws/State.lean ====
section
/-! SUPPORT. One lemma per field and update of the state. -/

namespace Sys2Proof.Machine

/-! ### Raising a status -/

@[simp] theorem State.raise_regs (e : Status) (s : State) : (s.raise e).regs = s.regs := rfl
@[simp] theorem State.raise_pc (e : Status) (s : State) : (s.raise e).pc = s.pc := rfl
@[simp] theorem State.raise_mem (e : Status) (s : State) : (s.raise e).mem = s.mem := rfl
@[simp] theorem State.raise_params (e : Status) (s : State) : (s.raise e).params = s.params := rfl
@[simp] theorem State.raise_status (e : Status) (s : State) : (s.raise e).status = e := rfl

/-! ### The created state -/

@[simp] theorem State.created_regs (p : Params) (m : Memory) :
    (State.created p m).regs = Vector.replicate 32 0 := rfl
@[simp] theorem State.created_pc (p : Params) (m : Memory) : (State.created p m).pc = 0 := rfl
@[simp] theorem State.created_mem (p : Params) (m : Memory) : (State.created p m).mem = m := rfl
@[simp] theorem State.created_params (p : Params) (m : Memory) : (State.created p m).params = p := rfl
@[simp] theorem State.created_status (p : Params) (m : Memory) : (State.created p m).status = .success := rfl

/-! ### Setting the program counter -/

@[simp] theorem setPc_regs (v : Word) (s : State) : (setPc v s).regs = s.regs := rfl
@[simp] theorem setPc_pc (v : Word) (s : State) : (setPc v s).pc = v := rfl
@[simp] theorem setPc_mem (v : Word) (s : State) : (setPc v s).mem = s.mem := rfl
@[simp] theorem setPc_params (v : Word) (s : State) : (setPc v s).params = s.params := rfl
@[simp] theorem setPc_status (v : Word) (s : State) : (setPc v s).status = s.status := rfl

/-! ### Writing a register -/

@[simp] theorem State.writeReg_pc (s : State) (i : RegIdx) (v : Word) : (s.writeReg i v).pc = s.pc := by
  unfold State.writeReg; split <;> rfl
@[simp] theorem State.writeReg_mem (s : State) (i : RegIdx) (v : Word) : (s.writeReg i v).mem = s.mem := by
  unfold State.writeReg; split <;> rfl
@[simp] theorem State.writeReg_params (s : State) (i : RegIdx) (v : Word) :
    (s.writeReg i v).params = s.params := by
  unfold State.writeReg; split <;> rfl
@[simp] theorem State.writeReg_status (s : State) (i : RegIdx) (v : Word) :
    (s.writeReg i v).status = s.status := by
  unfold State.writeReg; split <;> rfl

theorem State.writeReg_regs_hardwired {s : State} {i : RegIdx} (h : s.hardwired i) (v : Word) :
    s.writeReg i v = s := by
  unfold State.writeReg; rw [if_pos h]

theorem State.writeReg_regs {s : State} {i : RegIdx} (h : ¬ s.hardwired i) (v : Word) :
    (s.writeReg i v).regs = s.regs.set i.val v i.isLt := by
  unfold State.writeReg; rw [if_neg h]

/-! ### Completing an instruction -/

@[simp] theorem State.complete_regs (rd : RegIdx) (v : Word) (s : State) :
    (s.complete rd v).regs = (s.writeReg rd v).regs := rfl
@[simp] theorem State.complete_pc (rd : RegIdx) (v : Word) (s : State) : (s.complete rd v).pc = s.pc :=
  s.writeReg_pc rd v
@[simp] theorem State.complete_mem (rd : RegIdx) (v : Word) (s : State) : (s.complete rd v).mem = s.mem :=
  s.writeReg_mem rd v
@[simp] theorem State.complete_params (rd : RegIdx) (v : Word) (s : State) :
    (s.complete rd v).params = s.params :=
  s.writeReg_params rd v
@[simp] theorem State.complete_status (rd : RegIdx) (v : Word) (s : State) :
    (s.complete rd v).status = .success := rfl

/-! ### Advancing the program counter -/

/-- Whether phase 3 advances (R57). -/
theorem State.advance_pc (pc0 : Word) (s : State) :
    (s.advance pc0 false).pc =
      if s.status = .success ∨ s.params.pcAdvanceOnException = true then wrap32 (u32 pc0 + 4) else s.pc := by
  unfold State.advance; rw [if_neg Bool.false_ne_true]; split <;> rfl

@[simp] theorem State.advance_regs (pc0 : Word) (b : Bool) (s : State) : (s.advance pc0 b).regs = s.regs := by
  unfold State.advance; split <;> (try split) <;> rfl
@[simp] theorem State.advance_mem (pc0 : Word) (b : Bool) (s : State) : (s.advance pc0 b).mem = s.mem := by
  unfold State.advance; split <;> (try split) <;> rfl
@[simp] theorem State.advance_params (pc0 : Word) (b : Bool) (s : State) :
    (s.advance pc0 b).params = s.params := by
  unfold State.advance; split <;> (try split) <;> rfl
@[simp] theorem State.advance_status (pc0 : Word) (b : Bool) (s : State) :
    (s.advance pc0 b).status = s.status := by
  unfold State.advance; split <;> (try split) <;> rfl

/-! ### Updates of the memory -/

@[simp] theorem Memory.putByte_policy (m : Memory) (a : Nat) (b : Byte) : (m.putByte a b).policy = m.policy := rfl
@[simp] theorem Memory.putByte_answers (m : Memory) (a : Nat) (b : Byte) :
    (m.putByte a b).answers = m.answers := rfl

@[simp] theorem Memory.putBytes_policy (bs : List Byte) (m : Memory) (addr : Word) (k : Nat) :
    (m.putBytes addr k bs).policy = m.policy := by
  induction bs generalizing m k with
  | nil => rfl
  | cons b bs ih => exact ih (m.putByte _ b) (k + 1)

@[simp] theorem Memory.putBytes_answers (bs : List Byte) (m : Memory) (addr : Word) (k : Nat) :
    (m.putBytes addr k bs).answers = m.answers := by
  induction bs generalizing m k with
  | nil => rfl
  | cons b bs ih => exact ih (m.putByte _ b) (k + 1)

@[simp] theorem Memory.read_cells (m : Memory) (addr : Word) : (m.read addr).2.cells = m.cells := by
  unfold Memory.read; split <;> rfl
@[simp] theorem Memory.read_policy (m : Memory) (addr : Word) : (m.read addr).2.policy = m.policy := by
  unfold Memory.read; split <;> rfl
@[simp] theorem Memory.read_answers (m : Memory) (addr : Word) : (m.read addr).2.answers = m.answers.tail := by
  unfold Memory.read; split <;> simp_all

end Sys2Proof.Machine
end

