-- ==== Sys2Proof/Laws/Ops.lean ====
section
/-! SUPPORT. What the register and memory operations do, once. -/

namespace Sys2Proof.Machine

/-! ### Registers -/

/-- A hardwired register reads zero in every state (R12). -/
theorem State.readReg_hardwired {s : State} {i : RegIdx} (h : s.hardwired i) : s.readReg i = 0 := by
  unfold State.readReg; rw [if_pos h]

theorem State.readReg_slot {s : State} {i : RegIdx} (h : ¬ s.hardwired i) : s.readReg i = s.regs.get i := by
  unfold State.readReg; rw [if_neg h]

/-- A read depends on the register file and the parameters alone. -/
theorem State.readReg_congr {s t : State} (hr : t.regs = s.regs) (hp : t.params = s.params) (i : RegIdx) :
    t.readReg i = s.readReg i := by
  simp only [State.readReg, State.hardwired, hr, hp]

@[simp] theorem State.readReg_with_mem (s : State) (m : Memory) (i : RegIdx) :
    ({ s with mem := m } : State).readReg i = s.readReg i := rfl

/-- A slot after a write (R13). -/
theorem State.writeReg_get (s : State) (i j : RegIdx) (v : Word) :
    (s.writeReg i v).regs.get j = if i = j ∧ ¬ s.hardwired i then v else s.regs.get j := by
  by_cases h : s.hardwired i
  · rw [State.writeReg_regs_hardwired h, if_neg (fun hc => hc.2 h)]
  · rw [State.writeReg_regs h]
    simp only [Vector.get_eq_getElem, Vector.getElem_set, Fin.val_inj, h, not_false_eq_true, and_true]

/-- A write leaves every other slot alone (R13). -/
theorem State.writeReg_get_other {i j : RegIdx} (h : j ≠ i) (s : State) (v : Word) :
    (s.writeReg i v).regs.get j = s.regs.get j := by
  rw [State.writeReg_get, if_neg (fun hc => h hc.1.symm)]

/-- A written register reads what was written, unless it is hardwired (R12, R13). -/
theorem State.readReg_writeReg_self {s : State} {i : RegIdx} (h : ¬ s.hardwired i) (v : Word) :
    (s.writeReg i v).readReg i = v := by
  rw [State.readReg_slot (by simpa using h), State.writeReg_get, if_pos ⟨rfl, h⟩]

/-! ### The list of bytes -/

/-- The canonical form of a list of bytes. -/
abbrev CellsWf (cs : List Host.Cell) : Prop :=
  cs.Pairwise (fun c d => c.1 < d.1) ∧ ∀ c ∈ cs, some c.2 ≠ unlisted

theorem cellAt_eq_unlisted {cs : List Host.Cell} {a : Nat} (h : ∀ c ∈ cs, c.1 ≠ a) : cellAt cs a = unlisted := by
  induction cs with
  | nil => rfl
  | cons c cs ih =>
    obtain ⟨k, v⟩ := c
    rw [cellAt, if_neg (fun e => h (k, v) (by simp) e.symm)]
    exact ih (fun c hc => h c (by simp [hc]))

theorem cellAt_putCell (cs : List Host.Cell) (a : Nat) (b : Byte) (x : Nat) :
    cellAt (putCell cs a b) x = if x = a then some b else cellAt cs x := by
  induction cs with
  | nil => simp [putCell, cellAt]
  | cons c cs ih =>
    obtain ⟨k, v⟩ := c
    simp only [putCell]
    split
    · simp only [cellAt]
    · split
      · subst_vars; simp only [cellAt]; split <;> rfl
      · simp only [cellAt, ih]; split <;> split <;> simp_all

theorem cellAt_dropCell {cs : List Host.Cell} (h : cs.Pairwise (fun c d => c.1 < d.1)) (a x : Nat) :
    cellAt (dropCell cs a) x = if x = a then unlisted else cellAt cs x := by
  induction cs with
  | nil => simp [dropCell, cellAt]
  | cons c cs ih =>
    obtain ⟨k, v⟩ := c
    obtain ⟨hk, ht⟩ := List.pairwise_cons.mp h
    simp only [dropCell]
    split
    · rename_i e; subst e
      by_cases hx : x = a
      · subst hx
        rw [if_pos rfl, cellAt_eq_unlisted]
        intro c hc e
        have := hk c hc
        simp only at this
        omega
      · rw [if_neg hx]; simp only [cellAt]; rw [if_neg hx]
    · simp only [cellAt, ih ht]; split <;> split <;> simp_all

theorem mem_putCell {cs : List Host.Cell} {a : Nat} {b : Byte} {c : Host.Cell} (h : c ∈ putCell cs a b) :
    c = (a, b) ∨ c ∈ cs := by
  induction cs with
  | nil => simpa [putCell] using h
  | cons d cs ih =>
    obtain ⟨k, v⟩ := d
    simp only [putCell] at h
    split at h
    · simpa using h
    · split at h
      · rcases List.mem_cons.mp h with h | h
        · exact .inl h
        · exact .inr (List.mem_cons_of_mem _ h)
      · rcases List.mem_cons.mp h with h | h
        · exact .inr (h ▸ List.mem_cons_self)
        · exact (ih h).imp id (List.mem_cons_of_mem _)

theorem mem_dropCell {cs : List Host.Cell} {a : Nat} {c : Host.Cell} (h : c ∈ dropCell cs a) : c ∈ cs := by
  induction cs with
  | nil => simp [dropCell] at h
  | cons d cs ih =>
    obtain ⟨k, v⟩ := d
    simp only [dropCell] at h
    split at h
    · exact List.mem_cons_of_mem _ h
    · rcases List.mem_cons.mp h with h | h
      · exact h ▸ List.mem_cons_self
      · exact List.mem_cons_of_mem _ (ih h)

theorem putCell_wf {cs : List Host.Cell} (h : CellsWf cs) (a : Nat) {b : Byte} (hb : some b ≠ unlisted) :
    CellsWf (putCell cs a b) := by
  refine ⟨?_, fun c hc => ?_⟩
  · have hs := h.1
    clear h
    induction cs with
    | nil => simp [putCell]
    | cons d cs ih =>
      obtain ⟨k, v⟩ := d
      obtain ⟨hk, ht⟩ := List.pairwise_cons.mp hs
      simp only [putCell]
      split
      · refine List.pairwise_cons.mpr ⟨fun c hc => ?_, hs⟩
        rcases List.mem_cons.mp hc with hc | hc
        · subst hc; assumption
        · have := hk c hc; simp only at this ⊢; omega
      · split
        · subst_vars; exact List.pairwise_cons.mpr ⟨hk, ht⟩
        · refine List.pairwise_cons.mpr ⟨fun c hc => ?_, ih ht⟩
          rcases mem_putCell hc with hc | hc
          · subst hc; simp only; omega
          · exact hk c hc
  · rcases mem_putCell hc with rfl | hc
    · exact hb
    · exact h.2 c hc

theorem dropCell_wf {cs : List Host.Cell} (h : CellsWf cs) (a : Nat) : CellsWf (dropCell cs a) := by
  refine ⟨?_, fun c hc => h.2 c (mem_dropCell hc)⟩
  have hs := h.1
  clear h
  induction cs with
  | nil => simp [dropCell]
  | cons d cs ih =>
    obtain ⟨k, v⟩ := d
    obtain ⟨hk, ht⟩ := List.pairwise_cons.mp hs
    simp only [dropCell]
    split
    · exact ht
    · exact List.pairwise_cons.mpr ⟨fun c hc => hk c (mem_dropCell hc), ih ht⟩

/-! ### The memory: every operation keeps the canonical form -/

theorem Memory.empty_wf : Memory.empty.wf := ⟨.nil, fun _ h => by simp [Memory.empty] at h⟩

theorem Memory.putByte_wf {m : Memory} (h : m.wf) (a : Nat) (b : Byte) : (m.putByte a b).wf := by
  unfold Memory.wf Memory.putByte
  by_cases hb : some b = unlisted
  · simp only [if_pos hb]; exact dropCell_wf h a
  · simp only [if_neg hb]; exact putCell_wf h a hb

theorem Memory.putBytes_wf (bs : List Byte) {m : Memory} (h : m.wf) (addr : Word) (k : Nat) :
    (m.putBytes addr k bs).wf := by
  induction bs generalizing m k with
  | nil => exact h
  | cons b bs ih => exact ih (Memory.putByte_wf h _ b) (k + 1)

theorem Memory.write_wf {m : Memory} (h : m.wf) (addr : Word) (bs : List Byte) : (m.write addr bs).2.wf := by
  unfold Memory.write
  split
  · exact h
  · exact Memory.putBytes_wf bs h addr 0

theorem Memory.read_wf {m : Memory} (h : m.wf) (addr : Word) : (m.read addr).2.wf := by
  unfold Memory.wf; rw [Memory.read_cells]; exact h

/-- A byte after a byte was stored. -/
theorem Memory.readByte_putByte {m : Memory} (h : m.wf) (a : Nat) (b : Byte) (x : Nat) :
    (m.putByte a b).readByte x = if x = a then some b else m.readByte x := by
  unfold Memory.readByte Memory.putByte
  by_cases hb : some b = unlisted
  · simp only [if_pos hb]; rw [cellAt_dropCell h.1, hb]
  · simp only [if_neg hb]; exact cellAt_putCell _ _ _ _

/-- A byte outside a request is as before. -/
theorem Memory.readByte_putBytes_other (bs : List Byte) {m : Memory} (h : m.wf) (addr : Word) (k x : Nat)
    (hx : ∀ j, k ≤ j → j < k + bs.length → byteAddr m.policy addr j ≠ x) :
    (m.putBytes addr k bs).readByte x = m.readByte x := by
  induction bs generalizing m k with
  | nil => rfl
  | cons b bs ih =>
    rw [Memory.putBytes, ih (Memory.putByte_wf h _ b), Memory.readByte_putByte h, if_neg]
    · intro e; exact hx k (le_refl k) (by simp) e.symm
    · intro j hj hj'
      rw [Memory.putByte_policy]
      exact hx j (by omega) (by simp at hj' ⊢; omega)

/-! ### Reads of the collaborator -/

/-- A read, whole: the oldest ready answer, else the bytes'. -/
theorem Memory.read_of_ready {m : Memory} {a : Answer} {rest : List Answer} (h : m.answers = a :: rest)
    (addr : Word) : m.read addr = (a, { m with answers := rest }) := by
  unfold Memory.read; rw [h]

theorem Memory.read_of_bytes {m : Memory} (h : m.answers = []) (addr : Word) :
    m.read addr = (m.byteAnswer addr, m) := by
  unfold Memory.read; rw [h]

/-- The bytes never answer with silence. -/
theorem Memory.byteAnswer_ne_silent (m : Memory) (addr : Word) : m.byteAnswer addr ≠ .silent := by
  unfold Memory.byteAnswer
  split
  · simp
  · split <;> simp

end Sys2Proof.Machine
end

