-- ==== Sys2Proof/Laws/Arith.lean ====
section
/-! SUPPORT. The integer arithmetic of the units as operations on bit vectors, and what a meaning can answer. -/

namespace Sys2Proof

theorem u32_eq_toNat (v : Word) : u32 v = v.toNat := rfl

/-- `s32` is the two's complement reading. -/
theorem s32_eq_toInt (v : Word) : s32 v = v.toInt := by
  unfold s32 u32
  rw [BitVec.toInt_eq_msb_cond, BitVec.msb_eq_getLsbD_last]
  rfl

theorem wrap32_u32_add (a b : Word) : wrap32 (u32 a + u32 b) = a + b := by
  unfold wrap32 u32
  apply BitVec.eq_of_toNat_eq
  rw [← Int.natCast_add, BitVec.ofInt_natCast, BitVec.toNat_ofNat, BitVec.toNat_add]

theorem wrap32_u32_sub (a b : Word) : wrap32 (u32 a - u32 b) = a - b := by
  apply BitVec.eq_of_toInt_eq
  unfold wrap32 u32
  rw [BitVec.toInt_ofInt, BitVec.toInt_sub, BitVec.toInt_eq_toNat_bmod a, BitVec.toInt_eq_toNat_bmod b]
  simp

theorem wrap32_u32_add_four (a : Word) : wrap32 (u32 a + 4) = a + 4 := wrap32_u32_add a 4

namespace Machine

@[simp] theorem effectiveOperand_add (b : Word) : effectiveOperand false b = b := rfl

@[simp] theorem effectiveOperand_sub (b : Word) : effectiveOperand true b = -b := by
  unfold effectiveOperand
  rw [if_pos rfl]
  have h := wrap32_u32_sub 0 b
  simpa [u32] using h

@[simp] theorem sumPattern_eq (a e : Word) : sumPattern a e = a + e := wrap32_u32_add a e

/-- The arithmetic unit completes when the test is not made or does not hold (R67). -/
theorem arithmetic_completes {sub uns : Bool} {rs rt : RegIdx} {s : State} {e r : Word}
    (he : effectiveOperand sub (s.readReg rt) = e) (hr : s.readReg rs + e = r)
    (h : uns = true ∨ overflow s.params.ovfDetect (s.readReg rs) e r = false) (rd : RegIdx) :
    arithmetic sub uns rs rt rd s = .next (s.complete rd r) := by
  subst he hr
  unfold arithmetic State.sources
  simp only [sumPattern_eq]
  rw [if_neg]
  rcases h with h | h <;> simp [h]

/-- The arithmetic unit raises ArithmeticOverflow when the test is made and holds (R67). -/
theorem arithmetic_raises {sub : Bool} {rs rt : RegIdx} {s : State} {e r : Word}
    (he : effectiveOperand sub (s.readReg rt) = e) (hr : s.readReg rs + e = r)
    (h : overflow s.params.ovfDetect (s.readReg rs) e r = true) (rd : RegIdx) :
    arithmetic sub false rs rt rd s = .next (s.raise .arithmeticOverflow) := by
  subst he hr
  unfold arithmetic State.sources
  simp only [sumPattern_eq]
  rw [if_pos]
  simp [h]

/-- The one answer of the logic unit (R77). -/
theorem logic_eq (op : Word → Word → Word) (rs rt rd : RegIdx) (s : State) :
    logic op rs rt rd s = .next (s.complete rd (op (s.readReg rs) (s.readReg rt))) := rfl

/-- Everything a meaning can answer: it completes, or it raises ArithmeticOverflow. -/
theorem exec_cases (i : Instr) (s : State) :
    (∃ v, exec i s = .next (s.complete i.rd v)) ∨ exec i s = .next (s.raise .arithmeticOverflow) := by
  have harith : ∀ (sub uns : Bool) (rs rt rd : RegIdx),
      (∃ v, arithmetic sub uns rs rt rd s = .next (s.complete rd v)) ∨
        arithmetic sub uns rs rt rd s = .next (s.raise .arithmeticOverflow) := by
    intro sub uns rs rt rd
    cases uns with
    | true => exact .inl ⟨_, arithmetic_completes rfl rfl (.inl rfl) rd⟩
    | false =>
      cases h : overflow s.params.ovfDetect (s.readReg rs) (effectiveOperand sub (s.readReg rt))
        (s.readReg rs + effectiveOperand sub (s.readReg rt)) with
      | true => exact .inr (arithmetic_raises rfl rfl h rd)
      | false => exact .inl ⟨_, arithmetic_completes rfl rfl (.inr h) rd⟩
  cases i with
  | add rs rt rd sh => exact harith false false rs rt rd
  | addu rs rt rd sh => exact harith false true rs rt rd
  | sub rs rt rd sh => exact harith true false rs rt rd
  | subu rs rt rd sh => exact harith true true rs rt rd
  | and rs rt rd sh => exact .inl ⟨_, rfl⟩
  | or rs rt rd sh => exact .inl ⟨_, rfl⟩
  | xor rs rt rd sh => exact .inl ⟨_, rfl⟩

end Machine

end Sys2Proof
end

