-- ==== Sys2Proof/Laws/Decode.lean ====
section
/-! SUPPORT. The fields of a word and of the encoder's words. -/

namespace Sys2Proof

/-! ### Fields as arithmetic -/

theorem opcodeOf_toNat (w : Word) : (opcodeOf w).toNat = w.toNat / 2 ^ 26 := by
  unfold opcodeOf
  rw [BitVec.extractLsb'_toNat, Nat.shiftRight_eq_div_pow, Nat.mod_eq_of_lt]
  have := w.isLt
  omega

theorem functOf_toNat (w : Word) : (functOf w).toNat = w.toNat % 2 ^ 6 := by
  unfold functOf
  rw [BitVec.extractLsb'_toNat, Nat.shiftRight_zero]

theorem regField_val (lo : Nat) (w : Word) : (regField lo w).val = w.toNat / 2 ^ lo % 32 := by
  show (w.extractLsb' lo 5).toNat = _
  rw [BitVec.extractLsb'_toNat, Nat.shiftRight_eq_div_pow]

theorem shamtOf_eq (w : Word) : shamtOf w = w.toNat / 2 ^ 6 % 32 := by
  unfold shamtOf
  rw [BitVec.extractLsb'_toNat, Nat.shiftRight_eq_div_pow]

theorem shamtOf_lt (w : Word) : shamtOf w < 32 := (w.extractLsb' 6 5).isLt

/-! ### The register format as arithmetic -/

/-- The word of R51 as the sum of its fields. -/
theorem registerWord_toNat (rs rt rd : RegIdx) {shamt : Nat} (h : shamt < 32) (funct : BitVec 6) :
    (registerWord rs rt rd shamt funct).toNat =
      rs.val * 2 ^ 21 + rt.val * 2 ^ 16 + rd.val * 2 ^ 11 + shamt * 2 ^ 6 + funct.toNat := by
  have h1 := rs.isLt
  have h2 := rt.isLt
  have h3 := rd.isLt
  have h4 := funct.isLt
  unfold registerWord
  simp only [BitVec.toNat_or, BitVec.toNat_shiftLeft, BitVec.toNat_ofNat, BitVec.toNat_setWidth,
    Nat.shiftLeft_eq]
  rw [Nat.mod_eq_of_lt (a := rs.val) (by omega), Nat.mod_eq_of_lt (a := rt.val) (by omega),
    Nat.mod_eq_of_lt (a := rd.val) (by omega), Nat.mod_eq_of_lt (a := shamt) (by omega),
    Nat.mod_eq_of_lt (a := rs.val * 2 ^ 21) (by omega), Nat.mod_eq_of_lt (a := rt.val * 2 ^ 16) (by omega),
    Nat.mod_eq_of_lt (a := rd.val * 2 ^ 11) (by omega), Nat.mod_eq_of_lt (a := shamt * 2 ^ 6) (by omega),
    Nat.mod_eq_of_lt (a := funct.toNat) (by omega)]
  have e1 : rs.val * 2 ^ 21 ||| rt.val * 2 ^ 16 = rs.val * 2 ^ 21 + rt.val * 2 ^ 16 := by
    have := Nat.two_pow_add_eq_or_of_lt (i := 21) (b := rt.val * 2 ^ 16) (by omega) rs.val
    rw [Nat.mul_comm]; exact this.symm
  have e2 : (rs.val * 2 ^ 21 + rt.val * 2 ^ 16) ||| rd.val * 2 ^ 11 =
      rs.val * 2 ^ 21 + rt.val * 2 ^ 16 + rd.val * 2 ^ 11 := by
    have := Nat.two_pow_add_eq_or_of_lt (i := 16) (b := rd.val * 2 ^ 11) (by omega) (rs.val * 2 ^ 5 + rt.val)
    have e : 2 ^ 16 * (rs.val * 2 ^ 5 + rt.val) = rs.val * 2 ^ 21 + rt.val * 2 ^ 16 := by omega
    rw [e] at this; exact this.symm
  have e3 : (rs.val * 2 ^ 21 + rt.val * 2 ^ 16 + rd.val * 2 ^ 11) ||| shamt * 2 ^ 6 =
      rs.val * 2 ^ 21 + rt.val * 2 ^ 16 + rd.val * 2 ^ 11 + shamt * 2 ^ 6 := by
    have := Nat.two_pow_add_eq_or_of_lt (i := 11) (b := shamt * 2 ^ 6) (by omega)
      (rs.val * 2 ^ 10 + rt.val * 2 ^ 5 + rd.val)
    have e : 2 ^ 11 * (rs.val * 2 ^ 10 + rt.val * 2 ^ 5 + rd.val) =
        rs.val * 2 ^ 21 + rt.val * 2 ^ 16 + rd.val * 2 ^ 11 := by omega
    rw [e] at this; exact this.symm
  have e4 : (rs.val * 2 ^ 21 + rt.val * 2 ^ 16 + rd.val * 2 ^ 11 + shamt * 2 ^ 6) ||| funct.toNat =
      rs.val * 2 ^ 21 + rt.val * 2 ^ 16 + rd.val * 2 ^ 11 + shamt * 2 ^ 6 + funct.toNat := by
    have := Nat.two_pow_add_eq_or_of_lt (i := 6) (b := funct.toNat) (by omega)
      (rs.val * 2 ^ 15 + rt.val * 2 ^ 10 + rd.val * 2 ^ 5 + shamt)
    have e : 2 ^ 6 * (rs.val * 2 ^ 15 + rt.val * 2 ^ 10 + rd.val * 2 ^ 5 + shamt) =
        rs.val * 2 ^ 21 + rt.val * 2 ^ 16 + rd.val * 2 ^ 11 + shamt * 2 ^ 6 := by omega
    rw [e] at this; exact this.symm
  rw [e1, e2, e3, e4]

/-- A word under the mask of the opcode table keeps its opcode and its function code (R44). -/
theorem and_mask_toNat (w : Word) :
    (w &&& 0xFC00003F#32).toNat = (opcodeOf w).toNat * 2 ^ 26 + (functOf w).toNat := by
  have e : w &&& 0xFC00003F#32 = ((w >>> 26) <<< 26) ||| (w &&& 63#32) := by
    ext i hi
    interval_cases i <;> simp
  have h1 := w.isLt
  have h2 : w.toNat &&& 63 % 2 ^ 32 = w.toNat % 2 ^ 6 := Nat.and_two_pow_sub_one_eq_mod _ 6
  have h3 := Nat.two_pow_add_eq_or_of_lt (i := 26) (b := w.toNat % 2 ^ 6) (by omega) (w.toNat / 2 ^ 26)
  rw [e, opcodeOf_toNat, functOf_toNat]
  simp only [BitVec.toNat_or, BitVec.toNat_and, BitVec.toNat_shiftLeft, BitVec.toNat_ushiftRight,
    BitVec.toNat_ofNat, Nat.shiftRight_eq_div_pow, Nat.shiftLeft_eq]
  rw [h2, Nat.mod_eq_of_lt (by omega), Nat.mul_comm]
  exact h3.symm

/-- The fields of the encoder's words (R38, R51). -/
theorem registerWord_fields (rs rt rd : RegIdx) {shamt : Nat} (h : shamt < 32) (funct : BitVec 6) :
    (opcodeOf (registerWord rs rt rd shamt funct)).toNat = 0 ∧
      functOf (registerWord rs rt rd shamt funct) = funct ∧
      regField 21 (registerWord rs rt rd shamt funct) = rs ∧
      regField 16 (registerWord rs rt rd shamt funct) = rt ∧
      regField 11 (registerWord rs rt rd shamt funct) = rd ∧
      shamtOf (registerWord rs rt rd shamt funct) = shamt := by
  have h1 := rs.isLt
  have h2 := rt.isLt
  have h3 := rd.isLt
  have h4 := funct.isLt
  have hw := registerWord_toNat rs rt rd h funct
  refine ⟨?_, BitVec.eq_of_toNat_eq ?_, Fin.ext ?_, Fin.ext ?_, Fin.ext ?_, ?_⟩
  · rw [opcodeOf_toNat, hw]; omega
  · rw [functOf_toNat, hw]; omega
  · rw [regField_val, hw]; omega
  · rw [regField_val, hw]; omega
  · rw [regField_val, hw]; omega
  · rw [shamtOf_eq, hw]; omega

/-- A word with opcode 0 is the word of its fields (R38). -/
theorem registerWord_of_fields {w : Word} (h : (opcodeOf w).toNat = 0) :
    registerWord (regField 21 w) (regField 16 w) (regField 11 w) (shamtOf w) (functOf w) = w := by
  apply BitVec.eq_of_toNat_eq
  rw [registerWord_toNat _ _ _ (shamtOf_lt w), regField_val, regField_val, regField_val, shamtOf_eq,
    functOf_toNat]
  rw [opcodeOf_toNat] at h
  have := w.isLt
  omega

/-! ### What the decoder reads -/

/-- The decoder on a word of the register format. -/
theorem decode_register {w : Word} (h : (opcodeOf w).toNat = 0) :
    decode w =
      select (.register (regField 21 w) (regField 16 w) (regField 11 w) (shamtOf w) (functOf w)) := by
  unfold decode fieldsOf classify
  rw [if_pos h]

/-- Everything `select` accepts. -/
theorem select_ok {d : Decoded} {i : Instr} (h : select d = .ok i) :
    d = .register i.rs i.rt i.rd i.shamt (functCode i) := by
  cases d with
  | register rs rt rd sh f =>
    simp only [select] at h
    repeat' split at h
    all_goals first
      | (cases h; subst_vars; rfl)
      | exact absurd h (by simp)
  | immediate op rs rd imm => exact absurd h (by simp [select])
  | jump op a => exact absurd h (by simp [select])

/-- Everything the decoder accepts: the opcode is 0 and the instruction's fields are the word's (R38, R44). -/
theorem decode_ok {w : Word} {i : Instr} (h : decode w = .ok i) :
    (opcodeOf w).toNat = 0 ∧ functOf w = functCode i ∧ regField 21 w = i.rs ∧ regField 16 w = i.rt ∧
      regField 11 w = i.rd ∧ shamtOf w = i.shamt := by
  have hs := select_ok h
  unfold fieldsOf at hs
  cases hc : classify w with
  | register =>
    rw [hc] at hs
    simp only [Decoded.register.injEq] at hs
    obtain ⟨h1, h2, h3, h4, h5⟩ := hs
    refine ⟨?_, h5, h1, h2, h3, h4⟩
    unfold classify at hc
    split at hc
    · assumption
    · split at hc <;> cases hc
  | immediate => rw [hc] at hs; cases hs
  | jump => rw [hc] at hs; cases hs

/-! ### The bytes of a word -/

/-- A word laid out in an order and read in the same order is the word (R27). -/
theorem wordOfBytes_bytesOfWord (o : ByteOrder) (w : Word) :
    ∃ b0 b1 b2 b3, bytesOfWord o w = [b0, b1, b2, b3] ∧ wordOfBytes o b0 b1 b2 b3 = w := by
  have h : byteOfWord w 3 ++ byteOfWord w 2 ++ byteOfWord w 1 ++ byteOfWord w 0 = w := by
    unfold byteOfWord
    ext i hi
    simp only [BitVec.getElem_append, BitVec.getElem_extractLsb']
    have e : w[i] = w.getLsbD i := rfl
    rw [e]
    split
    · congr 1; simp
    · split
      · congr 1; omega
      · split <;> (congr 1; omega)
  cases o with
  | big => exact ⟨_, _, _, _, rfl, h⟩
  | little => exact ⟨_, _, _, _, rfl, h⟩

/-- The byte order with which a word is laid out and read does not matter. -/
theorem decodeBytes_bytesOfWord (o : ByteOrder) (w : Word) (rest : List Byte) :
    decodeBytes o (bytesOfWord o w ++ rest) =
      match decode w with
      | .ok i => .ok (i, rest)
      | .error e => .error e := by
  obtain ⟨b0, b1, b2, b3, hb, hw⟩ := wordOfBytes_bytesOfWord o w
  rw [hb]
  cases hd : decode w with
  | ok i => simp only [List.cons_append, List.nil_append, decodeBytes, hw, hd]
  | error e => simp only [List.cons_append, List.nil_append, decodeBytes, hw, hd]

end Sys2Proof
end

