-- ==== Sys2Proof/Laws/PerInstr.lean ====
section
/-! SUPPORT. Lemmas made per instruction: the encoder's word under the mask of the opcode table. -/

namespace Sys2Proof.Laws.MaskMatch

/-- Under the mask that covers the opcode and the function code, an instruction's word is its function code
(30_encoding.md R44). -/
def Statement (i : Instr) : Prop :=
  i.WellFormed → encode i &&& 0xFC00003F#32 = (functCode i).setWidth 32

theorem of_registerWord (rs rt rd : RegIdx) {shamt : Nat} (h : shamt < 32) (funct : BitVec 6) :
    registerWord rs rt rd shamt funct &&& 0xFC00003F#32 = funct.setWidth 32 := by
  obtain ⟨ho, hf, -⟩ := registerWord_fields rs rt rd h funct
  apply BitVec.eq_of_toNat_eq
  rw [and_mask_toNat, ho, hf, BitVec.toNat_setWidth, Nat.mod_eq_of_lt (by have := funct.isLt; omega)]
  omega

theorem add (rs rt rd : RegIdx) (shamt : Nat) : Statement (.add rs rt rd shamt) :=
  fun h => of_registerWord rs rt rd h _

theorem addu (rs rt rd : RegIdx) (shamt : Nat) : Statement (.addu rs rt rd shamt) :=
  fun h => of_registerWord rs rt rd h _

theorem sub (rs rt rd : RegIdx) (shamt : Nat) : Statement (.sub rs rt rd shamt) :=
  fun h => of_registerWord rs rt rd h _

theorem subu (rs rt rd : RegIdx) (shamt : Nat) : Statement (.subu rs rt rd shamt) :=
  fun h => of_registerWord rs rt rd h _

theorem and (rs rt rd : RegIdx) (shamt : Nat) : Statement (.and rs rt rd shamt) :=
  fun h => of_registerWord rs rt rd h _

theorem or (rs rt rd : RegIdx) (shamt : Nat) : Statement (.or rs rt rd shamt) :=
  fun h => of_registerWord rs rt rd h _

theorem xor (rs rt rd : RegIdx) (shamt : Nat) : Statement (.xor rs rt rd shamt) :=
  fun h => of_registerWord rs rt rd h _

end Sys2Proof.Laws.MaskMatch
end

