-- ==== Sys2Proof/Laws/Step.lean ====
section
/-! SUPPORT. Everything a dispatch and a step can do, once. -/

namespace Sys2Proof.Machine

/-- Everything a dispatched word can do: its instruction completes, or a status is raised. -/
theorem dispatchWord_cases (w : Word) (s : State) :
    (∃ i v, decode w = .ok i ∧ exec i s = .next (s.complete i.rd v) ∧
        dispatchWord w s = .next (s.complete i.rd v)) ∨
      (∃ i, decode w = .ok i ∧ exec i s = .next (s.raise .arithmeticOverflow) ∧
        dispatchWord w s = .next (s.raise .arithmeticOverflow)) ∨
      (∃ e, decode w = .error e ∧ dispatchWord w s = .next (s.raise .invalidInstruction)) := by
  unfold dispatchWord
  cases hd : decode w with
  | error e => exact .inr (.inr ⟨e, rfl, rfl⟩)
  | ok i =>
    rcases exec_cases i s with ⟨v, h⟩ | h
    · exact .inl ⟨i, v, rfl, h, h⟩
    · exact .inr (.inl ⟨i, rfl, h, h⟩)

theorem step_eq_afterFetch {s : State} {a : Answer} {m : Memory} (h : s.mem.read s.pc = (a, m)) :
    step s = afterFetch { s with mem := m } a := by
  unfold step runCycle; rw [h]

theorem step_of_fetches {s : State} {w : Word} {m : Memory} (h : Fetches s w m) :
    step s = finishStep s.pc (dispatchWord w { s with mem := m }) := by
  obtain ⟨b0, b1, b2, b3, hr, hw⟩ := h
  rw [step_eq_afterFetch hr, ← hw]
  rfl

/-- Everything a step can do. -/
theorem step_cases (s : State) :
    (∃ w m i v, Fetches s w m ∧ decode w = .ok i ∧
        exec i { s with mem := m } = .next (({ s with mem := m } : State).complete i.rd v) ∧
        step s = .next ((({ s with mem := m } : State).complete i.rd v).advance s.pc false)) ∨
      (∃ w m i, Fetches s w m ∧ decode w = .ok i ∧
        exec i { s with mem := m } = .next (({ s with mem := m } : State).raise .arithmeticOverflow) ∧
        step s = .next ((({ s with mem := m } : State).raise .arithmeticOverflow).advance s.pc false)) ∨
      (∃ w m e, Fetches s w m ∧ decode w = .error e ∧
        step s = .next ((({ s with mem := m } : State).raise .invalidInstruction).advance s.pc false)) ∨
      (∃ c m, s.mem.read s.pc = (.fail c, m) ∧
        step s = .next (({ s with mem := m } : State).raise (.memFailure c))) ∨
      (∃ m, s.mem.read s.pc = (.silent, m) ∧ step s = .fault .memoryNeverAnswers) := by
  cases hr : s.mem.read s.pc with
  | mk a m =>
    cases a with
    | fail c => exact .inr (.inr (.inr (.inl ⟨c, m, rfl, step_eq_afterFetch hr⟩)))
    | silent => exact .inr (.inr (.inr (.inr ⟨m, rfl, step_eq_afterFetch hr⟩)))
    | ok b0 b1 b2 b3 =>
      have hf : Fetches s (wordOfBytes s.params.byteOrder b0 b1 b2 b3) m := ⟨b0, b1, b2, b3, hr, rfl⟩
      have hs := step_of_fetches hf
      rcases dispatchWord_cases (wordOfBytes s.params.byteOrder b0 b1 b2 b3) { s with mem := m } with
        ⟨i, v, hd, he, h⟩ | ⟨i, hd, he, h⟩ | ⟨e, hd, h⟩
      · exact .inl ⟨_, m, i, v, hf, hd, he, by rw [hs, h]; rfl⟩
      · exact .inr (.inl ⟨_, m, i, hf, hd, he, by rw [hs, h]; rfl⟩)
      · exact .inr (.inr (.inl ⟨_, m, e, hf, hd, by rw [hs, h]; rfl⟩))

/-- The memory after a fetch: only the ready answers can have changed. -/
theorem read_keeps_bytes {s : State} {a : Answer} {m : Memory} (h : s.mem.read s.pc = (a, m)) :
    m.cells = s.mem.cells ∧ m.policy = s.mem.policy ∧ m.answers = s.mem.answers.tail := by
  have e : m = (s.mem.read s.pc).2 := by rw [h]
  subst e
  exact ⟨Memory.read_cells _ _, Memory.read_policy _ _, Memory.read_answers _ _⟩

/-! ### Runs -/

theorem run_succ_next {M : Host.Core} {s t : M.State} (h : M.step s = .next t) (n : Nat) :
    M.run (n + 1) s = M.run n t := by
  simp only [Host.Core.run, h]

theorem run_succ_fault {M : Host.Core} {s : M.State} {r : M.Fault} (h : M.step s = .fault r) (n : Nat) :
    M.run (n + 1) s = .fault r := by
  simp only [Host.Core.run, h]

/-- A run of one step more begins with the step. -/
theorem run_of_step_next {s t : State} (h : step s = .next t) (n : Nat) :
    Host.Core.run Sys2Proof.core (n + 1) s = Host.Core.run Sys2Proof.core n t :=
  run_succ_next (M := Sys2Proof.core) h n

theorem run_of_step_fault {s : State} {r : Fault} (h : step s = .fault r) (n : Nat) :
    Host.Core.run Sys2Proof.core (n + 1) s = .fault r :=
  run_succ_fault (M := Sys2Proof.core) h n

end Sys2Proof.Machine
end

