-- ==== Sys2Proof/Tests/Slice0.lean ====
section
/-! SUPPORT. Tests: expected results from 95_test_vectors.md (parts A and B, and the rules' own examples), and for every
statement with hypotheses a concrete state that meets them. -/

namespace Sys2Proof.Tests

open Sys2Proof.Machine

/-! ### Ill-formed terms -/

theorem test_wellformed_refuses_wide_shamt_add : ¬ (Instr.add 1 2 3 32).WellFormed := by decide
theorem test_wellformed_refuses_wide_shamt_addu : ¬ (Instr.addu 1 2 3 33).WellFormed := by decide
theorem test_wellformed_refuses_wide_shamt_sub : ¬ (Instr.sub 1 2 3 32).WellFormed := by decide
theorem test_wellformed_refuses_wide_shamt_subu : ¬ (Instr.subu 1 2 3 64).WellFormed := by decide
theorem test_wellformed_refuses_wide_shamt_and : ¬ (Instr.and 1 2 3 32).WellFormed := by decide
theorem test_wellformed_refuses_wide_shamt_or : ¬ (Instr.or 1 2 3 32).WellFormed := by decide
theorem test_wellformed_refuses_wide_shamt_xor : ¬ (Instr.xor 1 2 3 100).WellFormed := by decide
theorem test_wellformed_accepts_widest_shamt : (Instr.add 31 31 31 31).WellFormed := by decide

/-! ### Decoding: words written out from R38 and R44 (opcode rs rt rd shamt funct) -/

theorem test_decode_add :
    decode 0b000000_00001_00010_00011_00000_100000#32 = .ok (.add 1 2 3 0) := by rfl
theorem test_decode_addu :
    decode 0b000000_00001_00010_00011_00000_100001#32 = .ok (.addu 1 2 3 0) := by rfl
theorem test_decode_sub :
    decode 0b000000_00001_00010_00110_00000_100010#32 = .ok (.sub 1 2 6 0) := by rfl
theorem test_decode_subu :
    decode 0b000000_00111_00010_01011_00000_100011#32 = .ok (.subu 7 2 11 0) := by rfl
theorem test_decode_and :
    decode 0b000000_00100_00101_00111_00000_100100#32 = .ok (.and 4 5 7 0) := by rfl
theorem test_decode_or :
    decode 0b000000_00100_00101_01000_00000_100101#32 = .ok (.or 4 5 8 0) := by rfl
theorem test_decode_xor :
    decode 0b000000_01000_00100_01001_00000_100110#32 = .ok (.xor 8 4 9 0) := by rfl

/-- B1: a non-zero shift amount is no obstacle. -/
theorem test_decode_shamt : decode 0x00221FE0#32 = .ok (.add 1 2 3 31) := by rfl
/-- B1, R49. -/
theorem test_reject_zero_word : decode 0x00000000#32 = .error (.unknownFunction 0x00#6) := by rfl
/-- B1, R49: 0x27 is not XOR. -/
theorem test_reject_27 : decode 0x00221827#32 = .error (.unknownFunction 0x27#6) := by rfl
theorem test_reject_1f : decode 0x0022181F#32 = .error (.unknownFunction 0x1F#6) := by rfl
theorem test_reject_30 : decode 0x00221830#32 = .error (.unknownFunction 0x30#6) := by rfl
/-- B1: the decoded fields of the other two formats. -/
theorem test_fields_immediate : fieldsOf 0x0C123456#32 = .immediate 3#6 0 18 0x3456#16 := by rfl
theorem test_fields_jump : fieldsOf 0x20010005#32 = .jump 8#6 0x0010005#26 := by rfl
theorem test_reject_opcode_1 : decode 0x04000000#32 = .error (.immediateFormat 1#6) := by rfl
theorem test_reject_opcode_4 : decode 0x10000000#32 = .error (.jumpFormat 4#6) := by rfl
theorem test_reject_opcode_63 : decode 0xFFFFFFFF#32 = .error (.jumpFormat 63#6) := by rfl
theorem test_reject_three_bytes : decodeBytes .big [0x00#8, 0x22#8, 0x18#8] = .error .tooFewBytes := by rfl
/-- B7. -/
theorem test_byte_order_big : wordOfBytes .big 0x00#8 0x22#8 0x18#8 0x20#8 = 0x00221820#32 := by decide
theorem test_byte_order_little : wordOfBytes .little 0x00#8 0x22#8 0x18#8 0x20#8 = 0x20182200#32 := by decide
/-- B2. -/
theorem test_encode_add : encode (.add 8 9 10 0) = 0x01095020#32 := by decide
theorem test_encode_bytes_little : encodeBytes .little (.and 4 5 7 0) = [0x24#8, 0x38#8, 0x85#8, 0x00#8] := by
  decide
theorem test_table_word : decodeTableWord 32 0x03FFF826 = some (.xor 31 31 31 0) := by decide
theorem test_table_word_illegal : decodeTableWord 32 0x0022182A = none := by decide

/-! ### Steps on a small state: `x[1] = a`, `x[2] = b`, `x[3] = 0xDEADBEEF`, all others 0 -/

/-- The defaults with the advance on an exception off. -/
def precise : Params := { defaultParams with pcAdvanceOnException := false }
/-- The defaults with register 0 hardwired. -/
def hardwiredZero : Params := { defaultParams with r0Hardwired := true }
/-- The defaults with the sign-bit test. -/
def signbitTest : Params := { defaultParams with ovfDetect := .signbit }
/-- The defaults with the little byte order. -/
def littleBytes : Params := { defaultParams with byteOrder := .little }

/-- Registers as above, nothing in memory. -/
def bare (p : Params) (a b pc : Word) : State :=
  setPc pc ((((State.created p Memory.empty).writeReg 1 a).writeReg 2 b).writeReg 3 0xDEADBEEF#32)

/-- The same with a word where the step fetches it. -/
def placed (p : Params) (a b pc w : Word) : State := (bare p a b pc).withFetchWord 32 w.toNat

/-- The same with memory made only of ready answers. -/
def answering (p : Params) (as : List Answer) : State :=
  { bare p 0x7FFFFFFF#32 1#32 0#32 with mem := { Memory.empty with answers := as } }

/-- What a step reports, the program counter and `x[3]`. -/
def seen : Host.Outcome State Fault Refusal → Option (Status × Word × Word)
  | .next t => some (t.status, t.pc, t.readReg 3)
  | .fault _ => none
  | .refused _ => none

/-- A4. -/
theorem test_add_5_3 :
    seen (step (placed defaultParams 5 3 0 0x00221820#32)) = some (.success, 4#32, 8#32) := by decide
/-- A5. -/
theorem test_add_overflow :
    seen (step (placed defaultParams 0x7FFFFFFF#32 1 0 0x00221820#32)) =
      some (.arithmeticOverflow, 4#32, 0xDEADBEEF#32) := by decide
/-- A5 with the precise policy. -/
theorem test_add_overflow_precise :
    seen (step (placed precise 0x7FFFFFFF#32 1 0 0x00221820#32)) =
      some (.arithmeticOverflow, 0#32, 0xDEADBEEF#32) := by decide
/-- B4, the case of C1. -/
theorem test_add_min_min_strict :
    seen (step (placed defaultParams int32Min int32Min 0 0x00221820#32)) = some (.success, 4#32, 0#32) := by decide
theorem test_add_min_min_signbit :
    seen (step (placed signbitTest int32Min int32Min 0 0x00221820#32)) =
      some (.arithmeticOverflow, 4#32, 0xDEADBEEF#32) := by decide
/-- A6. -/
theorem test_addu_wraps :
    seen (step (placed defaultParams 0x7FFFFFFF#32 1 0 0x00221821#32)) =
      some (.success, 4#32, 0x80000000#32) := by decide
/-- B4. -/
theorem test_sub_5_3 :
    seen (step (placed defaultParams 5 3 0 0x00221822#32)) = some (.success, 4#32, 2#32) := by decide
/-- B4, a D7 case. -/
theorem test_sub_minus_one_min :
    seen (step (placed defaultParams 0xFFFFFFFF#32 int32Min 0 0x00221822#32)) =
      some (.arithmeticOverflow, 4#32, 0xDEADBEEF#32) := by decide
/-- R72. -/
theorem test_subu_borrows :
    seen (step (placed defaultParams 0 1 0 0x00221823#32)) = some (.success, 4#32, 0xFFFFFFFF#32) := by decide
/-- B5. -/
theorem test_and :
    seen (step (placed defaultParams 0xAAAAAAAA#32 0xCCCCCCCC#32 0 0x00221824#32)) =
      some (.success, 4#32, 0x88888888#32) := by decide
theorem test_or :
    seen (step (placed defaultParams 0xAAAAAAAA#32 0xCCCCCCCC#32 0x1000#32 0x00221825#32)) =
      some (.success, 0x1004#32, 0xEEEEEEEE#32) := by decide
theorem test_xor :
    seen (step (placed defaultParams 0xAAAAAAAA#32 0xCCCCCCCC#32 0 0x00221826#32)) =
      some (.success, 4#32, 0x66666666#32) := by decide
/-- B6: wrap of the program counter, and a misaligned one. -/
theorem test_pc_wraps :
    seen (step (placed defaultParams 0x7FFFFFFF#32 1 0xFFFFFFFC#32 0x00221821#32)) =
      some (.success, 0#32, 0x80000000#32) := by decide
theorem test_pc_misaligned :
    seen (step (placed defaultParams 0x7FFFFFFF#32 1 2#32 0x00221821#32)) =
      some (.success, 6#32, 0x80000000#32) := by decide
/-- B6: an illegal word. -/
theorem test_illegal_word :
    seen (step (placed defaultParams 5 3 0 0x20010005#32)) =
      some (.invalidInstruction, 4#32, 0xDEADBEEF#32) := by decide
theorem test_illegal_word_precise :
    seen (step (placed precise 5 3 0 0x0022182A#32)) =
      some (.invalidInstruction, 0#32, 0xDEADBEEF#32) := by decide
/-- B6: no memory there. -/
theorem test_no_memory :
    seen (step (bare defaultParams 5 3 0)) = some (.memFailure 0, 0#32, 0xDEADBEEF#32) := by decide
/-- B7: the little byte order. -/
theorem test_little :
    seen (step (placed littleBytes 5 3 0 0x00221820#32)) = some (.success, 4#32, 8#32) := by decide
/-- B10. -/
theorem test_write_register_0 :
    (match step (placed defaultParams 7 9 0 0x00220021#32) with
      | .next t => some (t.readReg 0)
      | _ => none) = some 0x10#32 := by decide
theorem test_write_register_0_hardwired :
    (match step (placed hardwiredZero 7 9 0 0x00220021#32) with
      | .next t => some (t.readReg 0, t.status)
      | _ => none) = some (0#32, .success) := by decide
/-- B8. -/
theorem test_get_register_32 :
    getRegister 32 (bare defaultParams 5 3 0) = { status := .invalidArgument, value := none } := by decide
theorem test_get_register_2 :
    getRegister 2 (bare defaultParams 5 3 0) = { status := .success, value := some 3#32 } := by decide

/-! ### Witnesses: states that meet the hypotheses of the statements -/

theorem fetches_placed_add : Fetches (placed defaultParams 5 3 0 0x00221820#32) 0x00221820#32
    (placed defaultParams 5 3 0 0x00221820#32).mem :=
  ⟨0x00#8, 0x22#8, 0x18#8, 0x20#8, by decide, by decide⟩

/-- DecodeOfEncodedBytes. -/
theorem witness_wellFormed : (Instr.xor 0 31 0 31).WellFormed := by decide

/-- EncodeOfDecodedWord. -/
theorem witness_decodes : decode 0x03FFFFE6#32 = .ok (.xor 31 31 31 31) := by rfl

/-- IllegalWordsRejectedByClass: function codes on both sides of the range, and the ends of the opcode ranges. -/
theorem witness_illegal_functions :
    (0x0000001F#32).toNat / 2 ^ 26 = 0 ∧ ¬ LegalWord 0x0000001F#32 ∧
      (0x00000027#32).toNat / 2 ^ 26 = 0 ∧ ¬ LegalWord 0x00000027#32 := by
  unfold LegalWord; decide
theorem witness_illegal_opcodes :
    (0x04000000#32).toNat / 2 ^ 26 = 1 ∧ (0x0FFFFFFF#32).toNat / 2 ^ 26 = 3 ∧
      (0x10000000#32).toNat / 2 ^ 26 = 4 ∧ (0xFFFFFFFF#32).toNat / 2 ^ 26 = 63 := by decide
theorem witness_legal_ends : LegalWord 0x00000020#32 ∧ LegalWord 0x03FFFFE6#32 := by
  unfold LegalWord; decide

/-- ByteOrderFormsWord, CommandsNeverChangeMemory, OnlyStepUsesMemoryAndRaises, InvalidArgumentOnlyForBadIndex: commands
that answer, the step among them, and both ends of the index range. -/
theorem witness_step_command :
    runCommand .step (bare defaultParams 5 3 0) =
      .next ({ status := .memFailure 0, value := none }, (bare defaultParams 5 3 0).raise (.memFailure 0)) := by rfl
theorem witness_command_index_31 :
    runCommand (.getRegister 31) State.reset =
      .next ({ status := .success, value := some 0 }, State.reset) := by rfl
theorem witness_command_index_32 :
    runCommand (.setRegister 32 5) State.reset =
      .next ({ status := .invalidArgument, value := none }, State.reset) := by rfl
theorem witness_commands :
    runCommands [.setPc 0x103#32, .getPc] State.reset =
      .next
        ([{ status := .success, value := none }, { status := .success, value := some 0x103#32 }],
          setPc 0x103#32 State.reset) := by rfl

/-- ShiftAmountIgnored. -/
theorem witness_shamt_words : 0x00221820#32 &&& 0xFFFFF83F#32 = 0x00221FE0#32 &&& 0xFFFFF83F#32 := by decide

/-- DispatchRoutesByFunctionCode: each clause at the ends of its range (function codes 0x20, 0x23, 0x24, 0x26, 0x27,
0x1F, 0x30). -/
theorem witness_routes :
    (0x00221820#32).toNat / 2 ^ 26 = 0 ∧ (0x00221820#32).toNat / 2 ^ 4 % 4 = 2 ∧ (0x00221823#32).toNat % 2 ^ 4 < 4 ∧
      (0x00221823#32).toNat / 2 ^ 4 % 4 = 2 ∧ (0x00221824#32).toNat % 2 ^ 4 = 4 ∧
      (0x00221824#32).toNat / 2 ^ 4 % 4 = 2 ∧ (0x00221826#32).toNat % 2 ^ 4 = 6 ∧
      (0x00221826#32).toNat / 2 ^ 4 % 4 = 2 ∧ 7 ≤ (0x00221827#32).toNat % 2 ^ 4 ∧
      (0x0022181F#32).toNat / 2 ^ 4 % 4 ≠ 2 ∧ (0x00221830#32).toNat / 2 ^ 4 % 4 ≠ 2 := by decide

/-- AddWritesSumOrOverflows, each clause, at the edge: `0x7FFFFFFE + 1` and `0x7FFFFFFF + 1`. -/
theorem witness_add_no_overflow :
    ¬ OverflowHolds (bare defaultParams 0x7FFFFFFE#32 1 0).params.ovfDetect
        ((bare defaultParams 0x7FFFFFFE#32 1 0).readReg 1) ((bare defaultParams 0x7FFFFFFE#32 1 0).readReg 2)
        0x7FFFFFFF#32 := by
  show ¬ OverflowHolds .strict 0x7FFFFFFE#32 1#32 0x7FFFFFFF#32
  unfold OverflowHolds; decide
theorem witness_add_overflow :
    OverflowHolds (bare defaultParams 0x7FFFFFFF#32 1 0).params.ovfDetect
        ((bare defaultParams 0x7FFFFFFF#32 1 0).readReg 1) ((bare defaultParams 0x7FFFFFFF#32 1 0).readReg 2)
        0x80000000#32 := by
  show OverflowHolds .strict 0x7FFFFFFF#32 1#32 0x80000000#32
  unfold OverflowHolds; decide

/-- SubWritesDifferenceOrOverflows, each clause: `0x80000001 - 1` and `0x80000000 - 1`. -/
theorem witness_sub_no_overflow :
    ¬ OverflowHolds (bare defaultParams 0x80000001#32 1 0).params.ovfDetect
        ((bare defaultParams 0x80000001#32 1 0).readReg 1)
        (wrap32 (0 - u32 ((bare defaultParams 0x80000001#32 1 0).readReg 2))) 0x80000000#32 := by
  show ¬ OverflowHolds .strict 0x80000001#32 (wrap32 (0 - u32 1#32)) 0x80000000#32
  unfold OverflowHolds; decide
theorem witness_sub_overflow :
    OverflowHolds (bare defaultParams 0x80000000#32 1 0).params.ovfDetect
        ((bare defaultParams 0x80000000#32 1 0).readReg 1)
        (wrap32 (0 - u32 ((bare defaultParams 0x80000000#32 1 0).readReg 2))) 0x7FFFFFFF#32 := by
  show OverflowHolds .strict 0x80000000#32 (wrap32 (0 - u32 1#32)) 0x7FFFFFFF#32
  unfold OverflowHolds; decide

/-- AddOverflowExactButOnePair and SubOverflowTable: the operands of each clause, under both tests. -/
theorem witness_both_min_strict :
    (bare defaultParams int32Min int32Min 0).readReg 1 = int32Min ∧
      (bare defaultParams int32Min int32Min 0).readReg 2 = int32Min ∧
      (bare defaultParams int32Min int32Min 0).params.ovfDetect = .strict := by decide
theorem witness_both_min_signbit :
    (bare signbitTest int32Min int32Min 0).readReg 1 = int32Min ∧
      (bare signbitTest int32Min int32Min 0).readReg 2 = int32Min ∧
      (bare signbitTest int32Min int32Min 0).params.ovfDetect = .signbit := by decide
theorem witness_not_both_min :
    (bare defaultParams int32Min 0x7FFFFFFF#32 0).readReg 1 = int32Min ∧
      (bare defaultParams int32Min 0x7FFFFFFF#32 0).readReg 2 ≠ int32Min := by decide
theorem witness_target_min_source_zero :
    (bare defaultParams 0 int32Min 0).readReg 2 = int32Min ∧
      0 ≤ ((bare defaultParams 0 int32Min 0).readReg 1).toInt := by decide
theorem witness_target_min_source_minus_one :
    (bare defaultParams 0xFFFFFFFF#32 int32Min 0).readReg 2 = int32Min ∧
      ((bare defaultParams 0xFFFFFFFF#32 int32Min 0).readReg 1).toInt < 0 ∧
      (bare defaultParams 0xFFFFFFFF#32 int32Min 0).readReg 1 ≠ int32Min := by decide
theorem witness_difference_fits :
    fitsS32 (((bare defaultParams 5 3 0).readReg 1).toInt - ((bare defaultParams 5 3 0).readReg 2).toInt) := by
  unfold fitsS32; decide

/-- TrappingFormsAgreeWithNonTrapping: ADD and SUB that succeed. -/
theorem witness_add_succeeds :
    ∃ t, exec (.add 1 2 3 0) (bare defaultParams 5 3 0) = .next t ∧ t.status = .success :=
  ⟨(bare defaultParams 5 3 0).complete 3 8, by rfl, rfl⟩
theorem witness_sub_succeeds :
    ∃ t, exec (.sub 1 2 3 0) (bare defaultParams 5 3 0) = .next t ∧ t.status = .success :=
  ⟨(bare defaultParams 5 3 0).complete 3 2, by rfl, rfl⟩

/-- SameSourceTwice. -/
theorem witness_strict : (bare defaultParams 5 3 0).params.ovfDetect = .strict := by decide

/-- RegisterReadsLastWrite, SetRegisterRoundTrip: a hardwired and an ordinary register 0, and both ends of the indexes. -/
theorem witness_hardwired : (bare hardwiredZero 5 3 0).hardwired 0 := by decide
theorem witness_not_hardwired : ¬ (bare defaultParams 5 3 0).hardwired 0 := by decide
theorem witness_register_31_not_hardwired : ¬ (bare hardwiredZero 5 3 0).hardwired 31 := by decide

/-- StepRunsDecodedInstruction. -/
theorem witness_step_runs_add :
    Fetches (placed defaultParams 5 3 0 0x00221820#32) 0x00221820#32
        (placed defaultParams 5 3 0 0x00221820#32).mem ∧
      decode 0x00221820#32 = .ok (.add 1 2 3 0) ∧
      ∃ t, exec (.add 1 2 3 0) (placed defaultParams 5 3 0 0x00221820#32) = .next t :=
  ⟨fetches_placed_add, by rfl, _, rfl⟩

/-- PlainBytesAnswerFetch, each clause: four bytes there, and a byte missing, at the top of the address space too. -/
theorem witness_plain_bytes :
    (placed defaultParams 5 3 0xFFFFFFFC#32 0x00221820#32).mem.answers = [] ∧
      refuses (placed defaultParams 5 3 0xFFFFFFFC#32 0x00221820#32).mem.policy 0xFFFFFFFC#32 4 = none ∧
      (placed defaultParams 5 3 0xFFFFFFFC#32 0x00221820#32).mem.readByte 0xFFFFFFFC = some 0x00#8 ∧
      (placed defaultParams 5 3 0xFFFFFFFC#32 0x00221820#32).mem.readByte 0xFFFFFFFD = some 0x22#8 ∧
      (placed defaultParams 5 3 0xFFFFFFFC#32 0x00221820#32).mem.readByte 0xFFFFFFFE = some 0x18#8 ∧
      (placed defaultParams 5 3 0xFFFFFFFC#32 0x00221820#32).mem.readByte 0xFFFFFFFF = some 0x20#8 := by decide
theorem witness_missing_byte :
    State.reset.mem.answers = [] ∧ refuses State.reset.mem.policy State.reset.pc 4 = none ∧
      State.reset.mem.readByte (byteAddr State.reset.mem.policy State.reset.pc 3) = none := by decide

/-- IllegalWordStepReportsInvalidInstruction, for an unknown function code and for the other two formats. -/
theorem witness_illegal_function_fetched :
    Fetches (placed defaultParams 5 3 0 0x00221827#32) 0x00221827#32
        (placed defaultParams 5 3 0 0x00221827#32).mem ∧ ¬ LegalWord 0x00221827#32 :=
  ⟨⟨0x00#8, 0x22#8, 0x18#8, 0x27#8, by decide, by decide⟩, by unfold LegalWord; decide⟩
theorem witness_illegal_opcode_fetched :
    Fetches (answering defaultParams [.ok 0x20#8 0x01#8 0x00#8 0x05#8]) 0x20010005#32 Memory.empty ∧
      ¬ LegalWord 0x20010005#32 :=
  ⟨⟨0x20#8, 0x01#8, 0x00#8, 0x05#8, by decide, by decide⟩, by unfold LegalWord; decide⟩

/-- ProgramCounterAfterDispatch, StepWritesAtMostDestination, StepStatusIsFetchOrDispatch, StepReadsOnceWritesNoMemory,
StepKeepsInvariant: steps that answer, with each status and under both policies, are `test_add_5_3`,
`test_add_overflow`, `test_add_overflow_precise`, `test_illegal_word`, `test_illegal_word_precise` and
`test_no_memory`; this is the next state itself, from a state with the invariant. -/
theorem witness_step_answers :
    ∃ t, step (placed defaultParams 5 3 0 0x00221820#32) = .next t ∧ t.status = .success :=
  ⟨setPc 4 ((placed defaultParams 5 3 0 0x00221820#32).complete 3 8), by rfl, rfl⟩
theorem witness_invariant : (placed defaultParams 5 3 2#32 0x00221820#32).Inv 2 :=
  ⟨by decide, by decide, by decide⟩

/-- FailedFetchPropagatesUnchanged: a ready answer that is a failure. -/
theorem witness_failed_fetch :
    (answering precise [.fail 7, .silent]).mem.read (answering precise [.fail 7, .silent]).pc =
      (.fail 7, { Memory.empty with answers := [.silent] }) := by decide

/-- SuccessReportedExactlyWhen: both sides, and a step command. -/
theorem witness_success :
    (placed defaultParams 5 3 0 0x00221820#32).stepSucceeds ∧
      Fetches (placed defaultParams 5 3 0 0x00221820#32) 0x00221820#32
        (placed defaultParams 5 3 0 0x00221820#32).mem ∧
      LegalWord 0x00221820#32 ∧ ¬ Overflows (placed defaultParams 5 3 0 0x00221820#32) (.add 1 2 3 0) :=
  ⟨witness_step_answers, fetches_placed_add, by unfold LegalWord; decide, by
    show ¬ OverflowHolds .strict 5#32 3#32 8#32
    unfold OverflowHolds; decide⟩

/-- StepStopsOnlyOnSilence: a silent collaborator, and one that answers. -/
theorem witness_silence :
    (answering defaultParams [.silent]).mem.read (answering defaultParams [.silent]).pc = (.silent, Memory.empty) := by
  decide

/-- ExecAlwaysAnswers: an ArithmeticOverflow. -/
theorem witness_exec_overflow :
    ∃ t, exec (.add 1 2 3 0) (bare defaultParams 0x7FFFFFFF#32 1 0) = .next t ∧ t.status = .arithmeticOverflow :=
  ⟨(bare defaultParams 0x7FFFFFFF#32 1 0).raise .arithmeticOverflow, by rfl, rfl⟩

/-- ExceptionRepeatsWithoutAdvance. -/
theorem witness_exception_without_advance :
    (placed precise 0x7FFFFFFF#32 1 0 0x00221820#32).params.pcAdvanceOnException = false ∧
      (placed precise 0x7FFFFFFF#32 1 0 0x00221820#32).mem.answers = [] ∧
      ∃ t, step (placed precise 0x7FFFFFFF#32 1 0 0x00221820#32) = .next t ∧ t.status.isException = true :=
  ⟨by decide, by decide, (placed precise 0x7FFFFFFF#32 1 0 0x00221820#32).raise .arithmeticOverflow, by rfl, rfl⟩

/-- RunNeverStops: a collaborator with a failure and four bytes ready. -/
theorem witness_memory_answers :
    (answering defaultParams [.fail 3, .ok 0x00#8 0x22#8 0x18#8 0x20#8]).memoryAnswers := by
  unfold State.memoryAnswers; decide

/-- WritePortStoresBytes: a write across the top of a memory that wraps. -/
theorem witness_write_wraps :
    Memory.wf { Memory.empty with policy := { defaultPolicy with straddle := .wraps } } ∧
      (Memory.write { Memory.empty with policy := { defaultPolicy with straddle := .wraps } } 0xFFFFFFFF#32
        [0xAA#8, 0xBB#8]).1 = .success ∧
      (Memory.write { Memory.empty with policy := { defaultPolicy with straddle := .wraps } } 0xFFFFFFFF#32
        [0xAA#8, 0xBB#8]).2.cells = [(0, 0xBB#8), (0xFFFFFFFF, 0xAA#8)] := by decide

/-- PlacedWordIsFetchedNext: a canonical memory, and a collaborator that would refuse the address. -/
theorem witness_placed_refused :
    Memory.empty.wf ∧ refuses defaultPolicy 0xFFFFFFFE#32 4 = some 0 := by decide
theorem test_placed_across_top :
    seen (step (placed defaultParams 5 3 0xFFFFFFFE#32 0x00221820#32)) = some (.success, 2#32, 8#32) := by decide

end Sys2Proof.Tests
end

/-! PROOFS. The encoding: decode of encode, the classifier, the fields (30_encoding.md sections 1 to 4). -/

namespace Sys2Proof

/-! ### Decode of encode -/

/-- Every instruction's function code selects it: the converse of `select_ok` (R44). -/
theorem select_functCode (i : Instr) :
    select (.register i.rs i.rt i.rd i.shamt (functCode i)) = .ok i := by
  cases i <;> rfl

theorem decode_encode {i : Instr} (h : i.WellFormed) : decode (encode i) = .ok i := by
  obtain ⟨hop, hfunct, hrs, hrt, hrd, hshamt⟩ := registerWord_fields i.rs i.rt i.rd h (functCode i)
  unfold encode
  rw [decode_register hop, hfunct, hrs, hrt, hrd, hshamt, select_functCode]

/-- Settles O2: the byte order cancels out, and decoding a word undoes encoding it. -/
theorem decodeOfEncodedBytes : Obligations.DecodeOfEncodedBytes := by
  intro o i rest h
  unfold encodeBytes
  rw [decodeBytes_bytesOfWord, decode_encode h]

/-- Settles O1, by evaluating the decoder on each word and on each list of bytes. -/
theorem sampleWordsDecode : Obligations.SampleWordsDecode :=
  ⟨rfl, rfl, rfl, rfl, rfl, rfl, rfl, rfl, rfl, rfl⟩

/-! ### The classifier -/

theorem classify_eq_register_iff (w : Word) : classify w = .register ↔ (opcodeOf w).toNat = 0 := by
  unfold classify
  split_ifs with h0 <;> simp [h0]

theorem classify_eq_immediate_iff (w : Word) :
    classify w = .immediate ↔ 1 ≤ (opcodeOf w).toNat ∧ (opcodeOf w).toNat ≤ 3 := by
  unfold classify
  split_ifs <;> simp <;> omega

theorem classify_eq_jump_iff (w : Word) : classify w = .jump ↔ 4 ≤ (opcodeOf w).toNat := by
  unfold classify
  split_ifs <;> simp <;> omega

/-- Settles O6: the classifier's three tests on the opcode, which is the word divided by 2^26. -/
theorem classifierSplitsByOpcode : Obligations.ClassifierSplitsByOpcode := by
  intro w
  rw [← opcodeOf_toNat]
  exact ⟨classify_eq_register_iff w, classify_eq_immediate_iff w, classify_eq_jump_iff w⟩

/-! ### The fields of the three formats -/

theorem fieldsOf_register {w : Word} (h : classify w = .register) :
    fieldsOf w = .register (regField 21 w) (regField 16 w) (regField 11 w) (shamtOf w) (functOf w) := by
  unfold fieldsOf
  rw [h]

theorem fieldsOf_immediate {w : Word} (h : classify w = .immediate) :
    fieldsOf w = .immediate (opcodeOf w) (regField 21 w) (regField 16 w) (w.extractLsb' 0 16) := by
  unfold fieldsOf
  rw [h]

theorem fieldsOf_jump {w : Word} (h : classify w = .jump) :
    fieldsOf w = .jump (opcodeOf w) (w.extractLsb' 0 26) := by
  unfold fieldsOf
  rw [h]

/-- The immediate and the address field are the low bits of the word (R39, R40). -/
theorem lowField_toNat (w : Word) (len : Nat) : (w.extractLsb' 0 len).toNat = w.toNat % 2 ^ len := by
  rw [BitVec.extractLsb'_toNat, Nat.shiftRight_zero]

/-- Settles O7: in each family, the field decoder's record, field by field. -/
theorem fieldsAreBitRanges : Obligations.FieldsAreBitRanges := by
  intro w
  cases hc : classify w with
  | register =>
    rw [fieldsOf_register hc]
    exact ⟨regField_val 21 w, regField_val 16 w, regField_val 11 w, shamtOf_eq w, functOf_toNat w⟩
  | immediate =>
    rw [fieldsOf_immediate hc]
    exact ⟨opcodeOf_toNat w, regField_val 21 w, regField_val 16 w, lowField_toNat w 16⟩
  | jump =>
    rw [fieldsOf_jump hc]
    exact ⟨opcodeOf_toNat w, lowField_toNat w 26⟩

end Sys2Proof

/-! PROOFS. The step cycle: illegal words and the status a step reports (40_step_cycle.md R60, R61, R66). -/

namespace Sys2Proof.Machine

/-! ### Illegal words -/

/-- The function codes of R44. -/
theorem functCode_range (i : Instr) : 0x20 ≤ (functCode i).toNat ∧ (functCode i).toNat ≤ 0x26 := by
  cases i <;> simp [functCode]

theorem legalWord_of_decode_ok {w : Word} {i : Instr} (h : decode w = .ok i) : LegalWord w := by
  obtain ⟨hop, hfunct, -⟩ := decode_ok h
  unfold LegalWord
  rw [← opcodeOf_toNat, ← functOf_toNat, hfunct]
  exact ⟨hop, functCode_range i⟩

theorem dispatchWord_of_illegal {w : Word} (h : ¬ LegalWord w) (s : State) :
    dispatchWord w s = .next (s.raise .invalidInstruction) := by
  unfold dispatchWord
  cases hd : decode w with
  | ok i => exact absurd (legalWord_of_decode_ok hd) h
  | error e => rfl

/-! ### From the dispatch to the step -/

theorem step_of_dispatch {s u : State} {w : Word} {m : Memory} (hf : Fetches s w m)
    (hu : dispatchWord w { s with mem := m } = .next u) : step s = .next (u.advance s.pc false) := by
  rw [step_of_fetches hf, hu]
  rfl

theorem Fetches.readByte {s : State} {w : Word} {m : Memory} (h : Fetches s w m) (a : Nat) :
    m.readByte a = s.mem.readByte a := by
  obtain ⟨_, _, _, _, hread, -⟩ := h
  unfold Memory.readByte
  rw [(read_keeps_bytes hread).1]

/-- The advance does not look at the registers. -/
theorem State.advance_with_regs (pc0 : Word) (b : Bool) (s : State) (regs : Vector Word 32) :
    State.advance pc0 b { s with regs := regs } = { s.advance pc0 b with regs := regs } := by
  unfold State.advance
  split
  · rfl
  · split <;> rfl

/-- The whole effect of a step on an illegal word (R60, R61). -/
theorem step_of_illegal {s : State} {w : Word} {m : Memory} (hf : Fetches s w m) (hw : ¬ LegalWord w) :
    step s = .next ((({ s with mem := m } : State).raise .invalidInstruction).advance s.pc false) :=
  step_of_dispatch hf (dispatchWord_of_illegal hw _)

/-- Settles O26: the next state is the fetched state with the status raised and the program counter advanced, and
neither the fetch nor the raise nor the advance looks at a register. -/
theorem illegalWordStepReportsInvalidInstruction : Obligations.IllegalWordStepReportsInvalidInstruction := by
  intro s w m hf hw
  refine ⟨_, step_of_illegal hf hw, ?status, ?regs, ?pc, ?bytes, ?params, ?anyRegs⟩
  case status => rw [State.advance_status, State.raise_status]
  case regs => rw [State.advance_regs, State.raise_regs]
  case pc => simp [State.advance_pc, wrap32_u32_add_four]
  case bytes =>
    intro a
    rw [State.advance_mem, State.raise_mem, hf.readByte a]
  case params => rw [State.advance_params, State.raise_params]
  case anyRegs =>
    intro regs
    have hf' : Fetches { s with regs := regs } w m := hf
    rw [step_of_illegal hf' hw, ← State.advance_with_regs]
    rfl

/-! ### The status of a step -/

/-- The dispatch results of R66. -/
theorem dispatchWord_status (w : Word) (s : State) :
    ∃ u, dispatchWord w s = .next u ∧
      (u.status = .success ∨ u.status = .invalidInstruction ∨ u.status = .arithmeticOverflow) := by
  rcases dispatchWord_cases w s with ⟨i, v, -, -, h⟩ | ⟨i, -, -, h⟩ | ⟨e, -, h⟩
  · exact ⟨_, h, .inl rfl⟩
  · exact ⟨_, h, .inr (.inr rfl)⟩
  · exact ⟨_, h, .inr (.inl rfl)⟩

/-- A step that answers failed its fetch or advanced from what the dispatch answered (R53, R59). -/
theorem step_next_cases {s t : State} (h : step s = .next t) :
    (∃ c m, s.mem.read s.pc = (.fail c, m) ∧ t = ({ s with mem := m } : State).raise (.memFailure c)) ∨
      ∃ w m u, Fetches s w m ∧ dispatchWord w { s with mem := m } = .next u ∧ t = u.advance s.pc false := by
  cases hread : s.mem.read s.pc with
  | mk answer m =>
    cases answer with
    | fail c =>
      rw [step_eq_afterFetch hread] at h
      cases h
      exact .inl ⟨c, m, rfl, rfl⟩
    | silent =>
      rw [step_eq_afterFetch hread] at h
      cases h
    | ok b0 b1 b2 b3 =>
      have hf : Fetches s (wordOfBytes s.params.byteOrder b0 b1 b2 b3) m := ⟨b0, b1, b2, b3, hread, rfl⟩
      obtain ⟨u, hu, -⟩ := dispatchWord_status (wordOfBytes s.params.byteOrder b0 b1 b2 b3) { s with mem := m }
      rw [step_of_dispatch hf hu] at h
      cases h
      exact .inr ⟨_, m, u, hf, hu, rfl⟩

/-- Settles O30: the advance keeps the status of the dispatch, and neither a failed fetch nor a dispatch reports
InvalidArgument. -/
theorem stepStatusIsFetchOrDispatch : Obligations.StepStatusIsFetchOrDispatch := by
  intro s t h
  rcases step_next_cases h with ⟨c, m, hread, rfl⟩ | ⟨w, m, u, hf, hu, rfl⟩
  · exact ⟨.inl ⟨c, m, hread, rfl⟩, by simp⟩
  · obtain ⟨u', hu', hstatus⟩ := dispatchWord_status w { s with mem := m }
    obtain rfl : u = u' := by simpa using hu.symm.trans hu'
    rw [State.advance_status]
    refine ⟨.inr ⟨w, m, u, hf, hu, rfl, hstatus⟩, ?_⟩
    rcases hstatus with hs | hs | hs <;> simp [hs]

end Sys2Proof.Machine

/-! PROOFS. The arithmetic unit: ADD, ADDU, SUB, SUBU and the overflow tests (41_arithmetic.md R67 to R72). -/

namespace Sys2Proof.Machine

/-! ### The encoding of an instruction -/

/-- An instruction is encoded by the function code that selects it (R38, R44). -/
theorem encodedBy_of_select {mk : RegIdx → RegIdx → RegIdx → Nat → Instr} {f : BitVec 6}
    (hsel : ∀ rs rt rd shamt, select (.register rs rt rd shamt f) = .ok (mk rs rt rd shamt)) :
    EncodedBy mk f.toNat := by
  intro w
  rw [← opcodeOf_toNat, ← functOf_toNat, BitVec.toNat_inj]
  constructor
  · intro h
    obtain ⟨hop, hfunct, -⟩ := decode_ok h
    have hcode := select_ok (hsel (regField 21 w) (regField 16 w) (regField 11 w) (shamtOf w))
    rw [Decoded.register.injEq] at hcode
    obtain ⟨-, -, -, -, hf⟩ := hcode
    exact ⟨hop, hfunct.trans hf.symm⟩
  · rintro ⟨hop, rfl⟩
    rw [decode_register hop, hsel]

/-! ### How an instruction ends, in the terms of the claims -/

/-- The write phase has exactly the frame of R67: one register, or none where it is hardwired (R13). -/
theorem State.complete_onlyRegisterWritten (s : State) (rd : RegIdx) (v : Word) :
    OnlyRegisterWritten s (s.complete rd v) rd v := by
  refine ⟨?hardwired, ?written, ?others, s.complete_pc rd v, ?memory, s.complete_params rd v⟩
  case hardwired =>
    intro h
    rw [State.complete_regs, State.writeReg_regs_hardwired h]
  case written =>
    intro h
    rw [State.readReg_congr (s.complete_regs rd v) (by simp), State.readReg_writeReg_self h]
  case others => exact fun i hi => State.writeReg_get_other hi s v
  case memory => simp [SameMemory]

theorem State.raise_nothingWritten (s : State) (e : Status) : NothingWritten s (s.raise e) :=
  ⟨s.raise_regs e, s.raise_pc e, by simp [SameMemory], s.raise_params e⟩

theorem completesWith_of_exec {i : Instr} {s : State} {rd : RegIdx} {v : Word}
    (h : exec i s = .next (s.complete rd v)) : CompletesWith i s rd v :=
  ⟨_, h, s.complete_status rd v, s.complete_onlyRegisterWritten rd v⟩

theorem raisesOverflow_of_exec {i : Instr} {s : State}
    (h : exec i s = .next (s.raise .arithmeticOverflow)) : RaisesOverflow i s :=
  ⟨_, h, s.raise_status _, s.raise_nothingWritten _⟩

/-! ### The overflow tests -/

/-- The model's test is the formula of R68. -/
theorem overflow_eq_true_iff (d : OvfDetect) (a e r : Word) :
    overflow d a e r = true ↔ OverflowHolds d a e r := by
  cases d with
  | strict => simp [overflow, overflowStrict, OverflowHolds, s32_eq_toInt, and_assoc]
  | signbit => simp [overflow, overflowSignbit, OverflowHolds, BitVec.msb_eq_getLsbD_last]

theorem overflow_eq_false_iff (d : OvfDetect) (a e r : Word) :
    overflow d a e r = false ↔ ¬ OverflowHolds d a e r := by
  rw [← overflow_eq_true_iff, Bool.not_eq_true]

/-- The sign-bit test in the signed readings that the strict test looks at. -/
theorem overflowHolds_signbit_iff_toInt (a e r : Word) :
    OverflowHolds .signbit a e r ↔ (a.toInt < 0 ↔ e.toInt < 0) ∧ ¬ (r.toInt < 0 ↔ a.toInt < 0) := by
  simp [OverflowHolds, BitVec.msb_eq_toInt]

/-- The signed reading of a wrapped sum is the sum up to a multiple of `2 ^ 32`. -/
theorem dvd_toInt_add_sub (a e : Word) : (2 ^ 32 : Int) ∣ (a + e).toInt - (a.toInt + e.toInt) := by
  rw [BitVec.toInt_add]
  exact Int.dvd_bmod_sub_self

theorem eq_int32Min_iff (v : Word) : v = int32Min ↔ v.toInt = -2 ^ 31 :=
  (BitVec.toInt_inj (y := int32Min)).symm

/-- On a sum the sign-bit test adds one input to the strict one: the sum of two negatives that is zero (R68). -/
theorem overflowHolds_signbit_iff (a e : Word) :
    OverflowHolds .signbit a e (a + e) ↔
      OverflowHolds .strict a e (a + e) ∨ (a = int32Min ∧ e = int32Min) := by
  have ha := a.toInt_lt
  have ha' := a.le_toInt
  have he := e.toInt_lt
  have he' := e.le_toInt
  have hr := (a + e).toInt_lt
  have hr' := (a + e).le_toInt
  have hsum := dvd_toInt_add_sub a e
  rw [overflowHolds_signbit_iff_toInt, eq_int32Min_iff, eq_int32Min_iff]
  unfold OverflowHolds
  omega

/-- Settles O15: the formulas agree by `overflow_eq_true_iff`, and the sign-bit test holds where the strict one does
and on the one input where that fails. -/
theorem overflowTestsDifferOnOneInput : Obligations.OverflowTestsDifferOnOneInput := by
  have hstrict : overflow .strict int32Min int32Min (int32Min + int32Min) = false := by decide
  have hsignbit : overflow .signbit int32Min int32Min (int32Min + int32Min) = true := by decide
  refine ⟨overflow_eq_true_iff, fun a e => ⟨⟨fun hne => ?_, ?_⟩, hstrict, hsignbit⟩⟩
  · by_contra hmin
    refine hne (Bool.eq_iff_iff.mpr ?_)
    rw [overflow_eq_true_iff, overflow_eq_true_iff, overflowHolds_signbit_iff, or_iff_left hmin]
  · rintro ⟨rfl, rfl⟩
    rw [hstrict, hsignbit]
    exact Bool.false_ne_true

/-! ### The trapping and the non-trapping forms -/

/-- What a non-trapping form does (R67): the test is not made. -/
theorem completesWith_of_nonTrapping {i : Instr} {sub : Bool} {rs rt rd : RegIdx} {s : State} {r : Word}
    (hexec : exec i s = arithmetic sub true rs rt rd s)
    (hr : s.readReg rs + effectiveOperand sub (s.readReg rt) = r) : CompletesWith i s rd r :=
  completesWith_of_exec (hexec.trans (arithmetic_completes rfl hr (.inl rfl) rd))

/-- What a trapping form does (R67): the test decides between the write and the exception. -/
theorem trapping_completes_or_raises {i : Instr} {sub : Bool} {rs rt rd : RegIdx} {s : State} {e r : Word}
    (hexec : exec i s = arithmetic sub false rs rt rd s)
    (he : effectiveOperand sub (s.readReg rt) = e) (hr : s.readReg rs + e = r) :
    (¬ OverflowHolds s.params.ovfDetect (s.readReg rs) e r → CompletesWith i s rd r) ∧
      (OverflowHolds s.params.ovfDetect (s.readReg rs) e r → RaisesOverflow i s) := by
  rw [← overflow_eq_false_iff, ← overflow_eq_true_iff]
  exact ⟨fun h => completesWith_of_exec (hexec.trans (arithmetic_completes he hr (.inr h) rd)),
    fun h => raisesOverflow_of_exec (hexec.trans (arithmetic_raises he hr h rd))⟩

theorem exec_add (rs rt rd : RegIdx) (shamt : Nat) (s : State) :
    exec (.add rs rt rd shamt) s = arithmetic false false rs rt rd s := rfl
theorem exec_addu (rs rt rd : RegIdx) (shamt : Nat) (s : State) :
    exec (.addu rs rt rd shamt) s = arithmetic false true rs rt rd s := rfl
theorem exec_sub (rs rt rd : RegIdx) (shamt : Nat) (s : State) :
    exec (.sub rs rt rd shamt) s = arithmetic true false rs rt rd s := rfl
theorem exec_subu (rs rt rd : RegIdx) (shamt : Nat) (s : State) :
    exec (.subu rs rt rd shamt) s = arithmetic true true rs rt rd s := rfl

/-- The result pattern of a subtract (R67): adding the effective operand is the wrapped difference. -/
theorem add_effectiveOperand_sub (a b : Word) : a + effectiveOperand true b = wrap32 (u32 a - u32 b) := by
  rw [effectiveOperand_sub, wrap32_u32_sub, BitVec.sub_eq_add_neg]

/-! ### The four instructions -/

/-- Settles O11: the trapping form whose effective operand is the target itself. -/
theorem addWritesSumOrOverflows : Obligations.AddWritesSumOrOverflows := by
  refine ⟨encodedBy_of_select (f := 0x20#6) (fun _ _ _ _ => rfl), ?_⟩
  rintro rs rt rd shamt s _ rfl
  exact trapping_completes_or_raises (exec_add rs rt rd shamt s) rfl (wrap32_u32_add _ _).symm

/-- Settles O12: the non-trapping form of the add. -/
theorem adduWritesWrappedSum : Obligations.AdduWritesWrappedSum := by
  refine ⟨encodedBy_of_select (f := 0x21#6) (fun _ _ _ _ => rfl), fun rs rt rd shamt s => ?_⟩
  exact completesWith_of_nonTrapping (exec_addu rs rt rd shamt s) (wrap32_u32_add _ _).symm

/-- Settles O13: the trapping form whose effective operand is the negated target. -/
theorem subWritesDifferenceOrOverflows : Obligations.SubWritesDifferenceOrOverflows := by
  refine ⟨encodedBy_of_select (f := 0x22#6) (fun _ _ _ _ => rfl), ?_⟩
  rintro rs rt rd shamt s _ _ rfl rfl
  exact trapping_completes_or_raises (exec_sub rs rt rd shamt s) rfl (add_effectiveOperand_sub _ _)

/-- Settles O14: the non-trapping form of the subtract. -/
theorem subuWritesWrappedDifference : Obligations.SubuWritesWrappedDifference := by
  refine ⟨encodedBy_of_select (f := 0x23#6) (fun _ _ _ _ => rfl), fun rs rt rd shamt s => ?_⟩
  exact completesWith_of_nonTrapping (exec_subu rs rt rd shamt s) (add_effectiveOperand_sub _ _)

end Sys2Proof.Machine

/-! PROOFS. The logic unit: AND, OR, XOR (42_logic.md R77 to R80). -/

namespace Sys2Proof.Machine

/-- What the logic unit does, whichever operation is selected (R77): it completes from every state. -/
theorem completesWith_of_logic {i : Instr} {op : Word → Word → Word} {rs rt rd : RegIdx} {s : State}
    (hexec : exec i s = logic op rs rt rd s) : CompletesWith i s rd (op (s.readReg rs) (s.readReg rt)) :=
  completesWith_of_exec (hexec.trans (logic_eq op rs rt rd s))

theorem exec_and (rs rt rd : RegIdx) (shamt : Nat) (s : State) :
    exec (.and rs rt rd shamt) s = logic (fun a b => a &&& b) rs rt rd s := rfl
theorem exec_or (rs rt rd : RegIdx) (shamt : Nat) (s : State) :
    exec (.or rs rt rd shamt) s = logic (fun a b => a ||| b) rs rt rd s := rfl
theorem exec_xor (rs rt rd : RegIdx) (shamt : Nat) (s : State) :
    exec (.xor rs rt rd shamt) s = logic (fun a b => a ^^^ b) rs rt rd s := rfl

/-- Settles O19: the value written is the bitwise and, and a bit of it is the conjunction of the two bits. -/
theorem andWritesBitwiseAnd : Obligations.AndWritesBitwiseAnd := by
  refine ⟨encodedBy_of_select (f := 0x24#6) (fun _ _ _ _ => rfl), fun rs rt rd shamt s => ?_⟩
  refine ⟨_, completesWith_of_logic (exec_and rs rt rd shamt s), fun i _ => ?_⟩
  rw [BitVec.getLsbD_and, Bool.and_eq_true]

/-- Settles O20: the value written is the bitwise or, and a bit of it is the disjunction of the two bits. -/
theorem orWritesBitwiseOr : Obligations.OrWritesBitwiseOr := by
  refine ⟨encodedBy_of_select (f := 0x25#6) (fun _ _ _ _ => rfl), fun rs rt rd shamt s => ?_⟩
  refine ⟨_, completesWith_of_logic (exec_or rs rt rd shamt s), fun i _ => ?_⟩
  rw [BitVec.getLsbD_or, Bool.or_eq_true]

/-- Settles O21: the value written is the bitwise exclusive or, and a bit of it is set where the two bits differ. -/
theorem xorWritesBitwiseXor : Obligations.XorWritesBitwiseXor := by
  refine ⟨encodedBy_of_select (f := 0x26#6) (fun _ _ _ _ => rfl), fun rs rt rd shamt s => ?_⟩
  refine ⟨_, completesWith_of_logic (exec_xor rs rt rd shamt s), fun i _ => ?_⟩
  rw [BitVec.getLsbD_xor, bne_iff_ne]

end Sys2Proof.Machine

/-! PROOFS. The host commands: what reset leaves, and which commands touch the memory and report what
(43_host_commands.md R83, R88). -/

namespace Sys2Proof.Machine

/-! ### Reset -/

theorem runCommand_reset (s : State) : runCommand .reset s = .next (Response.of .success, resetCommand s) := rfl

theorem resetCommand_regs_get (s : State) (i : RegIdx) : (resetCommand s).regs.get i = 0 := by
  unfold resetCommand
  rw [State.created_regs, Vector.get_eq_getElem, Vector.getElem_replicate]

/-- A zeroed slot reads zero, and so does a hardwired register (R12). -/
theorem resetCommand_readReg (s : State) (i : RegIdx) : (resetCommand s).readReg i = 0 := by
  by_cases h : (resetCommand s).hardwired i
  · exact State.readReg_hardwired h
  · rw [State.readReg_slot h, resetCommand_regs_get]

/-- Settles O43: the command answers the created state over the parameters and the memory it finds. -/
theorem resetCommandZeroesAll : Obligations.ResetCommandZeroesAll := by
  intro s
  exact ⟨_, runCommand_reset s, fun i => ⟨resetCommand_readReg s i, resetCommand_regs_get s i⟩,
    State.created_pc _ _, State.created_mem _ _⟩

/-! ### The step command and the others -/

/-- The step command reports the status its step left, and carries no value (R88, R93). -/
theorem runCommand_step_next {s t : State} {r : Response} (h : runCommand .step s = .next (r, t)) :
    step s = .next t ∧ r = Response.of t.status := by
  unfold runCommand at h
  cases hs : step s with
  | next u =>
    rw [hs] at h
    cases h
    exact ⟨rfl, rfl⟩
  | fault e =>
    rw [hs] at h
    cases h
  | refused e =>
    rw [hs] at h
    cases h

theorem getRegister_status (n : Nat) (s : State) :
    (getRegister n s).status = .success ∨ (getRegister n s).status = .invalidArgument := by
  unfold getRegister
  split
  · exact .inl rfl
  · exact .inr rfl

theorem setRegister_status (n : Nat) (v : Word) (s : State) :
    (setRegister n v s).1.status = .success ∨ (setRegister n v s).1.status = .invalidArgument := by
  unfold setRegister
  split
  · exact .inl rfl
  · exact .inr rfl

theorem setRegister_mem (n : Nat) (v : Word) (s : State) : (setRegister n v s).2.mem = s.mem := by
  unfold setRegister
  split
  · exact State.writeReg_mem s _ v
  · rfl

/-- A command other than the step keeps the memory and raises nothing (R88). -/
theorem runCommand_ne_step {c : Command} {s t : State} {r : Response} (hc : c ≠ .step)
    (h : runCommand c s = .next (r, t)) :
    t.mem = s.mem ∧ (r.status = .success ∨ r.status = .invalidArgument) := by
  cases c with
  | step => exact absurd rfl hc
  | reset =>
    cases h
    exact ⟨State.created_mem _ _, .inl rfl⟩
  | getRegister n =>
    cases h
    exact ⟨rfl, getRegister_status n s⟩
  | setRegister n v =>
    have hanswer : setRegister n v s = (r, t) := Host.Outcome.next.inj h
    have hmem := setRegister_mem n v s
    have hstatus := setRegister_status n v s
    rw [hanswer] at hmem hstatus
    exact ⟨hmem, hstatus⟩
  | getPc =>
    cases h
    exact ⟨rfl, .inl rfl⟩
  | setPc v =>
    cases h
    exact ⟨setPc_mem v s, .inl rfl⟩
  | setDebugLevel n =>
    cases h
    exact ⟨rfl, .inl rfl⟩

/-- Settles O47: the step command by its one equation, every other command by a split on the command. -/
theorem onlyStepUsesMemoryAndRaises : Obligations.OnlyStepUsesMemoryAndRaises := by
  intro c s t r h
  refine ⟨?_, fun hc => runCommand_ne_step hc h⟩
  rintro rfl
  exact runCommand_step_next h

end Sys2Proof.Machine

/-! PROOFS. The exceptions: where InvalidArgument comes from (60_exceptions.md R95). -/

namespace Sys2Proof.Machine

/-! ### The commands with a register index above 31 -/

/-- The one cause of InvalidArgument (R95): a command that names a register above 31. -/
def Command.HasBadIndex (c : Command) : Prop :=
  ∃ n, 32 ≤ n ∧ (c = .getRegister n ∨ ∃ v, c = .setRegister n v)

@[simp] theorem Command.hasBadIndex_getRegister (n : Nat) : (Command.getRegister n).HasBadIndex ↔ 32 ≤ n := by
  simp [Command.HasBadIndex]

@[simp] theorem Command.hasBadIndex_setRegister (n : Nat) (v : Word) :
    (Command.setRegister n v).HasBadIndex ↔ 32 ≤ n := by
  simp [Command.HasBadIndex]

/-! ### The two register commands, by the index -/

theorem getRegister_of_lt {n : Nat} (h : n < 32) (s : State) :
    getRegister n s = { status := .success, value := some (s.readReg ⟨n, h⟩) } := dif_pos h

theorem getRegister_of_le {n : Nat} (h : 32 ≤ n) (s : State) : getRegister n s = Response.of .invalidArgument :=
  dif_neg (Nat.not_lt.mpr h)

theorem setRegister_of_lt {n : Nat} (h : n < 32) (v : Word) (s : State) :
    setRegister n v s = (Response.of .success, s.writeReg ⟨n, h⟩ v) := dif_pos h

theorem setRegister_of_le {n : Nat} (h : 32 ≤ n) (v : Word) (s : State) :
    setRegister n v s = (Response.of .invalidArgument, s) :=
  dif_neg (Nat.not_lt.mpr h)

/-! ### InvalidArgument for a bad index, and for nothing else -/

/-- A bad index is answered without a value and without a change, from every state (R84, R85). -/
theorem runCommand_of_hasBadIndex {c : Command} (hbad : c.HasBadIndex) (s : State) :
    runCommand c s = .next (Response.of .invalidArgument, s) := by
  obtain ⟨n, hn, rfl | ⟨v, rfl⟩⟩ := hbad
  · rw [runCommand, getRegister_of_le hn]
  · rw [runCommand, setRegister_of_le hn]

/-- Without a bad index a command reports Success, or what its step reports, which is never InvalidArgument (R66). -/
theorem runCommand_status_ne_invalidArgument {c : Command} {s t : State} {r : Response} (hgood : ¬ c.HasBadIndex)
    (h : runCommand c s = .next (r, t)) : r.status ≠ .invalidArgument := by
  cases c with
  | step =>
    obtain ⟨hstep, rfl⟩ := runCommand_step_next h
    exact (stepStatusIsFetchOrDispatch s t hstep).2
  | getRegister n =>
    have hn : n < 32 := by simpa using hgood
    rw [runCommand, getRegister_of_lt hn] at h
    cases h
    exact Status.noConfusion
  | setRegister n v =>
    have hn : n < 32 := by simpa using hgood
    rw [runCommand, setRegister_of_lt hn] at h
    cases h
    exact Status.noConfusion
  | reset | getPc | setPc | setDebugLevel =>
    cases h
    exact Status.noConfusion

/-- Settles O48: a bad index determines the whole answer, and any other command's status is not InvalidArgument. -/
theorem invalidArgumentOnlyForBadIndex : Obligations.InvalidArgumentOnlyForBadIndex := by
  intro c s t r h
  change (r.status = .invalidArgument ↔ c.HasBadIndex) ∧ _
  by_cases hbad : c.HasBadIndex
  · rw [runCommand_of_hasBadIndex hbad] at h
    cases h
    exact ⟨iff_of_true rfl hbad, fun _ => ⟨rfl, rfl⟩⟩
  · have hstatus := runCommand_status_ne_invalidArgument hbad h
    exact ⟨iff_of_false hstatus hbad, fun hr => absurd hr hstatus⟩

end Sys2Proof.Machine

/-! PROOFS. The reset state and the two ways into it (70_reset_and_hazards.md R109, R110, R112). -/

namespace Sys2Proof.Machine

/-- A reset after power-on changes nothing, whatever the parameters and the memory (R109). -/
theorem resetCommand_created (p : Params) (m : Memory) : resetCommand (State.created p m) = State.created p m := by
  rw [resetCommand, State.created_params, State.created_mem]

theorem resetCommand_reset : resetCommand State.reset = State.reset := resetCommand_created _ _

/-- Settles O41: the power-on state is what a reset of it gives, so its registers are those a reset leaves; the two ways
into reset create a state over different parameters and memory, on which neither the registers nor the pc depend. -/
theorem resetStateIsZero : Obligations.ResetStateIsZero := by
  refine ⟨fun i => ?registers, State.created_pc _ _, resetCommand_reset, fun s => ?command⟩
  case registers =>
    rw [← resetCommand_reset]
    exact ⟨resetCommand_readReg _ i, resetCommand_regs_get _ i⟩
  case command =>
    have hregs : (resetCommand s).regs = State.reset.regs :=
      (State.created_regs _ _).trans (State.created_regs _ _).symm
    have hpc : (resetCommand s).pc = State.reset.pc := (State.created_pc _ _).trans (State.created_pc _ _).symm
    exact ⟨hregs, hpc, State.created_params _ _, State.created_mem _ _⟩

end Sys2Proof.Machine

/-! PROOFS. What a step keeps: the memory, the parameters, the program counter's residue, and the invariant
(10_state.md sections 2 and 3; 20_memory.md R25 to R30; 40_step_cycle.md R57, R59). -/

namespace Sys2Proof.Machine

/-! ### The frame of a dispatch and of a step -/

theorem dispatchWord_of_decode {w : Word} {i : Instr} (h : decode w = .ok i) (s : State) :
    dispatchWord w s = exec i s := by
  unfold dispatchWord
  rw [h]

/-- A dispatch leaves all but the registers and the status as they were (R15). -/
theorem dispatchWord_frame {w : Word} {s u : State} (h : dispatchWord w s = .next u) :
    u.pc = s.pc ∧ u.mem = s.mem ∧ u.params = s.params := by
  rcases dispatchWord_cases w s with ⟨i, v, -, -, hd⟩ | ⟨i, -, -, hd⟩ | ⟨e, -, hd⟩ <;> rw [hd] at h <;> cases h
  · exact ⟨s.complete_pc _ _, s.complete_mem _ _, s.complete_params _ _⟩
  · exact ⟨rfl, rfl, rfl⟩
  · exact ⟨rfl, rfl, rfl⟩

/-- The fetch's read is the whole of what a step does to the memory (R25, R26). -/
theorem step_mem {s t : State} (h : step s = .next t) : t.mem = (s.mem.read s.pc).2 := by
  rcases step_next_cases h with ⟨c, m, hread, rfl⟩ | ⟨w, m, u, ⟨_, _, _, _, hread, -⟩, hu, rfl⟩
  · rw [State.raise_mem, hread]
  · rw [State.advance_mem, (dispatchWord_frame hu).2.1, hread]

theorem step_params {s t : State} (h : step s = .next t) : t.params = s.params := by
  rcases step_next_cases h with ⟨c, m, -, rfl⟩ | ⟨w, m, u, -, hu, rfl⟩
  · rw [State.raise_params]
  · rw [State.advance_params, (dispatchWord_frame hu).2.2]

/-- The advance from the step's own program counter is R57, and moves nothing else. -/
theorem State.advance_self {s u : State} (hpc : u.pc = s.pc) (hparams : u.params = s.params) :
    u.advance s.pc false = { u with pc := pcAfterDispatch s u.status } := by
  rw [State.advance, if_neg Bool.false_ne_true, wrap32_u32_add_four, pcAfterDispatch, ← hparams, ← hpc]
  split <;> rfl

/-- The program counter after a step: unchanged by a failed fetch (R59), and otherwise R57's. -/
theorem step_pc {s t : State} (h : step s = .next t) :
    (∃ c, t.status = .memFailure c ∧ t.pc = s.pc) ∨ t.pc = pcAfterDispatch s t.status := by
  rcases step_next_cases h with ⟨c, m, -, rfl⟩ | ⟨w, m, u, -, hu, rfl⟩
  · exact .inl ⟨c, State.raise_status _ _, State.raise_pc _ _⟩
  · obtain ⟨hpc, -, hparams⟩ := dispatchWord_frame hu
    rw [State.advance_self hpc hparams]
    exact .inr rfl

theorem step_pc_eq_or_add_four {s t : State} (h : step s = .next t) : t.pc = s.pc ∨ t.pc = s.pc + 4 := by
  rcases step_pc h with ⟨-, -, hpc⟩ | hpc
  · exact .inl hpc
  · rw [hpc, pcAfterDispatch]
    split
    · exact .inr rfl
    · exact .inl rfl

/-! ### The invariant -/

theorem Status.fromStep_iff (st : Status) : st.fromStep = true ↔ st ≠ .invalidArgument := by
  cases st <;> simp [Status.fromStep]

/-- An advance by 4 keeps the residue modulo 4, across the top of the address space too (R28). -/
theorem add_four_toNat_mod_four (v : Word) : (v + 4).toNat % 4 = v.toNat % 4 := by
  rw [BitVec.toNat_add, show (4 : Word).toNat = 4 from rfl]
  omega

/-- Settles O39: the three parts one by one, from what a step does to the memory, what it reports and the two values
the program counter can take. -/
theorem stepKeepsInvariant : Obligations.StepKeepsInvariant := by
  rintro k s t ⟨hmem, -, hpc⟩ h
  refine ⟨?memory, ?status, ?residue⟩
  case memory =>
    rw [step_mem h]
    exact Memory.read_wf hmem s.pc
  case status => exact (Status.fromStep_iff _).mpr (stepStatusIsFetchOrDispatch s t h).2
  case residue =>
    rcases step_pc_eq_or_add_four h with heq | heq <;> rw [heq]
    · exact hpc
    · rw [add_four_toNat_mod_four, hpc]

/-- Settles O38: the reset state is written out, and the empty memory is canonical. -/
theorem resetHasInvariant : Obligations.ResetHasInvariant :=
  ⟨Memory.empty_wf, rfl, rfl⟩

/-- Settles O42, by the definition of the reset state's parameters. -/
theorem resetParametersAreDefaults : Obligations.ResetParametersAreDefaults :=
  ⟨rfl, rfl, rfl, rfl⟩

/-! ### The step's program counter and memory -/

theorem add_four_toNat (v : Word) : (v + 4).toNat = (v.toNat + 4) % 2 ^ 32 := BitVec.toNat_add v 4

/-- Settles O27: none of the three dispatch results is a failed fetch, so the program counter is R57's. -/
theorem programCounterAfterDispatch : Obligations.ProgramCounterAfterDispatch := by
  intro s t h
  rcases step_pc h with ⟨c, hstatus, -⟩ | hpc
  · simp [hstatus]
  · rw [hpc, ← add_four_toNat]
    refine ⟨fun hs => by simp [pcAfterDispatch, hs], fun hs => ⟨fun hadv => ?_, fun hadv => ?_⟩⟩
    · simp [pcAfterDispatch, hadv]
    · rcases hs with hs | hs <;> simp [pcAfterDispatch, hs, hadv]

theorem Memory.read_readByte (m : Memory) (addr : Word) (a : Nat) : (m.read addr).2.readByte a = m.readByte a := by
  rw [Memory.readByte, Memory.read_cells, Memory.readByte]

theorem step_readByte {s t : State} (h : step s = .next t) (a : Nat) : t.mem.readByte a = s.mem.readByte a := by
  rw [step_mem h, Memory.read_readByte]

/-- Settles O34: the memory after the step is the one after its read. -/
theorem stepReadsOnceWritesNoMemory : Obligations.StepReadsOnceWritesNoMemory := by
  intro s t h
  refine ⟨step_readByte h, ?_⟩
  rw [step_mem h]
  exact ⟨Memory.read_policy _ _, Memory.read_answers _ _⟩

/-- Settles O28: a failed fetch raises the collaborator's status over the memory after the read. -/
theorem failedFetchPropagatesUnchanged : Obligations.FailedFetchPropagatesUnchanged := by
  intro s m c hread
  have hstep : step s = .next (({ s with mem := m } : State).raise (.memFailure c)) := step_eq_afterFetch hread
  exact ⟨_, hstep, State.raise_status _ _, State.raise_regs _ _, State.raise_pc _ _, State.raise_params _ _,
    State.raise_mem _ _, step_readByte hstep⟩

/-- Settles O24: the step advances what the dispatch of the decoded instruction answers, and the advance touches the
program counter alone. -/
theorem stepRunsDecodedInstruction : Obligations.StepRunsDecodedInstruction := by
  intro s t w m i hf hd ht
  have hu : dispatchWord w { s with mem := m } = .next t := (dispatchWord_of_decode hd _).trans ht
  obtain ⟨hpc, -, hparams⟩ := dispatchWord_frame hu
  rw [step_of_dispatch hf hu, State.advance_self (s := s) hpc hparams]

end Sys2Proof.Machine

/-! PROOFS. What an instruction and a step report, and which register they write (10_state.md R14;
40_step_cycle.md R65; 60_exceptions.md R94, R97; 70_reset_and_hazards.md R118). -/

namespace Sys2Proof.Machine

/-! ### The status of an instruction -/

/-- The overflow test decides how every instruction ends; only ADD and SUB have one that can hold (R97). -/
theorem exec_completes_or_raises (i : Instr) (s : State) :
    (¬ Overflows s i → ∃ v, CompletesWith i s i.rd v) ∧ (Overflows s i → RaisesOverflow i s) := by
  cases i with
  | add rs rt rd shamt =>
    obtain ⟨hcompletes, hraises⟩ := trapping_completes_or_raises (exec_add rs rt rd shamt s) rfl rfl
    exact ⟨fun h => ⟨_, hcompletes h⟩, hraises⟩
  | sub rs rt rd shamt =>
    obtain ⟨hcompletes, hraises⟩ := trapping_completes_or_raises (exec_sub rs rt rd shamt s)
      (effectiveOperand_sub _) (BitVec.sub_eq_add_neg _ _).symm
    exact ⟨fun h => ⟨_, hcompletes h⟩, hraises⟩
  | addu rs rt rd shamt =>
    exact ⟨fun _ => ⟨_, completesWith_of_nonTrapping (exec_addu rs rt rd shamt s) rfl⟩, False.elim⟩
  | subu rs rt rd shamt =>
    exact ⟨fun _ => ⟨_, completesWith_of_nonTrapping (exec_subu rs rt rd shamt s) rfl⟩, False.elim⟩
  | and rs rt rd shamt => exact ⟨fun _ => ⟨_, completesWith_of_logic (exec_and rs rt rd shamt s)⟩, False.elim⟩
  | or rs rt rd shamt => exact ⟨fun _ => ⟨_, completesWith_of_logic (exec_or rs rt rd shamt s)⟩, False.elim⟩
  | xor rs rt rd shamt => exact ⟨fun _ => ⟨_, completesWith_of_logic (exec_xor rs rt rd shamt s)⟩, False.elim⟩

theorem functCode_of_overflows {s : State} {i : Instr} (h : Overflows s i) :
    functCode i = 0x20#6 ∨ functCode i = 0x22#6 := by
  cases i with
  | add => exact .inl rfl
  | sub => exact .inr rfl
  | addu | subu | and | or | xor => exact h.elim

/-- Settles O33: an instruction completes or raises by its overflow test, and both ends have the frame. -/
theorem execAlwaysAnswers : Obligations.ExecAlwaysAnswers := by
  intro i s
  obtain ⟨hcompletes, hraises⟩ := exec_completes_or_raises i s
  by_cases hov : Overflows s i
  · obtain ⟨t, ht, hstatus, -, hpc, hmem, hparams⟩ := hraises hov
    exact ⟨t, ht, .inr hstatus, fun _ => functCode_of_overflows hov, hpc, hmem, hparams⟩
  · obtain ⟨v, t, ht, hstatus, -, -, -, hpc, hmem, hparams⟩ := hcompletes hov
    exact ⟨t, ht, .inl hstatus, fun h => by simp [hstatus] at h, hpc, hmem, hparams⟩

/-! ### A dispatch that succeeds -/

theorem dispatchWord_success {w : Word} {s u : State} (h : dispatchWord w s = .next u) (hu : u.status = .success) :
    ∃ i, decode w = .ok i ∧ ¬ Overflows s i := by
  cases hd : decode w with
  | error e =>
    rw [dispatchWord, hd] at h
    cases h
    cases hu
  | ok i =>
    refine ⟨i, rfl, fun hov => ?_⟩
    obtain ⟨t, ht, hstatus, -⟩ := (exec_completes_or_raises i s).2 hov
    rw [dispatchWord_of_decode hd, ht] at h
    cases h
    simp [hstatus] at hu

/-- The operands, and so the overflow test, are read from the registers alone. -/
theorem overflows_with_mem (s : State) (m : Memory) (i : Instr) :
    Overflows { s with mem := m } i ↔ Overflows s i := by
  cases i <;> rfl

/-- A step succeeds exactly on a fetched instruction whose overflow test does not hold (R94). -/
theorem stepSucceeds_iff (s : State) :
    s.stepSucceeds ↔ ∃ w m i, Fetches s w m ∧ LegalWord w ∧ decode w = .ok i ∧ ¬ Overflows s i := by
  constructor
  · rintro ⟨t, ht, hstatus⟩
    rcases step_next_cases ht with ⟨c, m, -, rfl⟩ | ⟨w, m, u, hf, hu, rfl⟩
    · cases hstatus
    · rw [State.advance_status] at hstatus
      obtain ⟨i, hd, hov⟩ := dispatchWord_success hu hstatus
      exact ⟨w, m, i, hf, legalWord_of_decode_ok hd, hd, (overflows_with_mem s m i).not.mp hov⟩
  · rintro ⟨w, m, i, hf, -, hd, hov⟩
    obtain ⟨v, t, ht, hstatus, -⟩ := (exec_completes_or_raises i _).1 ((overflows_with_mem s m i).not.mpr hov)
    refine ⟨_, step_of_dispatch hf ((dispatchWord_of_decode hd _).trans ht), ?_⟩
    rw [State.advance_status, hstatus]

/-- The status of a step that answers decides whether the step succeeds. -/
theorem stepSucceeds_iff_status {s t : State} (h : step s = .next t) : s.stepSucceeds ↔ t.status = .success := by
  simp [State.stepSucceeds, h]

/-- A command other than the step succeeds unless it names a register above 31 (R84, R85, R95). -/
theorem runCommand_success_iff {c : Command} {s t : State} {r : Response} (hc : c ≠ .step)
    (h : runCommand c s = .next (r, t)) : r.status = .success ↔ ¬ c.HasBadIndex := by
  constructor
  · intro hr hbad
    rw [runCommand_of_hasBadIndex hbad] at h
    cases h
    cases hr
  · intro hgood
    exact (runCommand_ne_step hc h).2.resolve_right (runCommand_status_ne_invalidArgument hgood h)

theorem Command.not_hasBadIndex_iff (c : Command) :
    ¬ c.HasBadIndex ↔ ∀ n, (c = .getRegister n ∨ ∃ v, c = .setRegister n v) → n < 32 := by
  rw [Command.HasBadIndex, not_exists]
  exact forall_congr' fun n => by rw [not_and', Nat.not_le]

/-- Settles O31: the step by the overflow test, the step command by its step, every other command by its index. -/
theorem successReportedExactlyWhen : Obligations.SuccessReportedExactlyWhen := by
  refine ⟨stepSucceeds_iff, fun s t r h => ?_, fun c s t r h hc => ?_⟩
  · obtain ⟨hstep, rfl⟩ := runCommand_step_next h
    exact (stepSucceeds_iff_status hstep).symm
  · rw [runCommand_success_iff hc h, Command.not_hasBadIndex_iff]

/-! ### The registers a step writes -/

theorem dispatchWord_regs {w : Word} {s u : State} (h : dispatchWord w s = .next u) :
    (u.status ≠ .success → u.regs = s.regs) ∧
      (u.status = .success → LegalWord w ∧ ∀ j, j ≠ regField 11 w → u.regs.get j = s.regs.get j) := by
  rcases dispatchWord_cases w s with ⟨i, v, hd, -, hu⟩ | ⟨i, -, -, hu⟩ | ⟨e, -, hu⟩ <;> rw [hu] at h <;> cases h
  · refine ⟨fun hs => absurd rfl hs, fun _ => ⟨legalWord_of_decode_ok hd, fun j hj => ?_⟩⟩
    obtain ⟨-, -, -, -, hrd, -⟩ := decode_ok hd
    exact State.writeReg_get_other (hrd ▸ hj) s v
  · exact ⟨fun _ => rfl, fun hs => by cases hs⟩
  · exact ⟨fun _ => rfl, fun hs => by cases hs⟩

/-- Settles O29: neither a failed fetch nor the advance writes a register, so the writes are the dispatch's. -/
theorem stepWritesAtMostDestination : Obligations.StepWritesAtMostDestination := by
  intro s t h
  rcases step_next_cases h with ⟨c, m, -, rfl⟩ | ⟨w, m, u, hf, hu, rfl⟩
  · exact ⟨fun _ => rfl, fun hs => by cases hs⟩
  · rw [State.advance_status, State.advance_regs]
    obtain ⟨hfailed, hsucceeded⟩ := dispatchWord_regs hu
    exact ⟨hfailed, fun hs => ⟨w, m, hf, hsucceeded hs⟩⟩

/-! ### Silence is the one stop -/

theorem step_of_silent {s : State} {m : Memory} (h : s.mem.read s.pc = (.silent, m)) :
    step s = .fault .memoryNeverAnswers := step_eq_afterFetch h

theorem step_answers_of_not_silent {s : State} (h : ∀ m, s.mem.read s.pc ≠ (.silent, m)) : ∃ t, step s = .next t := by
  rcases step_cases s with ⟨_, _, _, _, -, -, -, ht⟩ | ⟨_, _, _, -, -, -, ht⟩ | ⟨_, _, _, -, -, ht⟩ |
    ⟨_, _, -, ht⟩ | ⟨m, hread, -⟩
  · exact ⟨_, ht⟩
  · exact ⟨_, ht⟩
  · exact ⟨_, ht⟩
  · exact ⟨_, ht⟩
  · exact absurd hread (h m)

/-- Settles O32: a silent read faults, and any other read ends in a next state. -/
theorem stepStopsOnlyOnSilence : Obligations.StepStopsOnlyOnSilence := by
  intro s
  by_cases hsilent : ∃ m, s.mem.read s.pc = (.silent, m)
  · obtain ⟨m, hread⟩ := hsilent
    rw [step_of_silent hread]
    refine ⟨fun r => ⟨fun _ => ⟨m, hread⟩, fun _ => ?_⟩, by simp, by simp [hread]⟩
    cases r
    rfl
  · have hread : ∀ m, s.mem.read s.pc ≠ (.silent, m) := not_exists.mp hsilent
    obtain ⟨t, ht⟩ := step_answers_of_not_silent hread
    rw [ht]
    exact ⟨fun r => by simp [hsilent], by simp, ⟨fun _ => hread, fun _ => ⟨t, rfl⟩⟩⟩

end Sys2Proof.Machine

/-! PROOFS. The reported status has no effect, runs of many steps, and sequences of commands (10_state.md R17, R22;
60_exceptions.md R104; 70_reset_and_hazards.md R112, R118). -/

namespace Sys2Proof.Machine

/-! ### No operation looks at the status it finds -/

theorem State.complete_with_status (s : State) (st : Status) (rd : RegIdx) (v : Word) :
    State.complete rd v { s with status := st } = s.complete rd v := by
  unfold State.complete State.writeReg
  split <;> rfl

theorem arithmetic_with_status (sub uns : Bool) (rs rt rd : RegIdx) (s : State) (st : Status) :
    arithmetic sub uns rs rt rd { s with status := st } = arithmetic sub uns rs rt rd s := by
  unfold arithmetic
  simp only [State.complete_with_status]
  rfl

theorem logic_with_status (op : Word → Word → Word) (rs rt rd : RegIdx) (s : State) (st : Status) :
    logic op rs rt rd { s with status := st } = logic op rs rt rd s := by
  rw [logic_eq, logic_eq, State.complete_with_status]
  rfl

/-- Every instruction ends in an operation that reports its own status. -/
theorem exec_with_status (i : Instr) (s : State) (st : Status) : exec i { s with status := st } = exec i s := by
  cases i with
  | add rs rt rd => exact arithmetic_with_status false false rs rt rd s st
  | addu rs rt rd => exact arithmetic_with_status false true rs rt rd s st
  | sub rs rt rd => exact arithmetic_with_status true false rs rt rd s st
  | subu rs rt rd => exact arithmetic_with_status true true rs rt rd s st
  | and rs rt rd | or rs rt rd | xor rs rt rd => exact logic_with_status _ rs rt rd s st

theorem dispatchWord_with_status (w : Word) (s : State) (st : Status) :
    dispatchWord w { s with status := st } = dispatchWord w s := by
  unfold dispatchWord
  cases decode w with
  | ok i => exact exec_with_status i s st
  | error e => rfl

theorem step_with_status (s : State) (st : Status) : step { s with status := st } = step s := by
  cases hread : s.mem.read s.pc with
  | mk answer m =>
    have hread' : ({ s with status := st } : State).mem.read s.pc = (answer, m) := hread
    rw [step_eq_afterFetch hread, step_eq_afterFetch hread']
    cases answer with
    | ok b0 b1 b2 b3 => exact congrArg (finishStep s.pc) (dispatchWord_with_status _ { s with mem := m } st)
    | fail c => rfl
    | silent => rfl

theorem State.writeReg_with_status (s : State) (st : Status) (i : RegIdx) (v : Word) :
    State.writeReg { s with status := st } i v = { s.writeReg i v with status := st } := by
  unfold State.writeReg
  split <;> rfl

/-- A command either forgets the status field (`reset` and `step` set it) or hands it on. -/
theorem runCommand_with_status (c : Command) (s : State) (st : Status) :
    runCommand c { s with status := st } = runCommand c s ∨
      ∃ r t, runCommand c s = .next (r, t) ∧
        runCommand c { s with status := st } = .next (r, { t with status := st }) := by
  cases c with
  | reset => exact .inl rfl
  | step =>
    refine .inl ?_
    unfold runCommand
    rw [step_with_status]
  | getRegister n => exact .inr ⟨_, s, rfl, rfl⟩
  | setRegister n v =>
    refine .inr ⟨(setRegister n v s).1, (setRegister n v s).2, rfl, ?_⟩
    by_cases h : n < 32
    · rw [runCommand, setRegister_of_lt h, setRegister_of_lt h, State.writeReg_with_status]
    · rw [runCommand, setRegister_of_le (Nat.not_lt.mp h), setRegister_of_le (Nat.not_lt.mp h)]
  | getPc => exact .inr ⟨_, s, rfl, rfl⟩
  | setPc v => exact .inr ⟨_, setPc v s, rfl, rfl⟩
  | setDebugLevel n => exact .inr ⟨_, s, rfl, rfl⟩

/-- Settles O35: in both cases of `runCommand_with_status` the answers differ in the status field at most. -/
theorem commandsIgnoreReportedStatus : Obligations.CommandsIgnoreReportedStatus := by
  intro c s st
  rcases runCommand_with_status c s st with hsame | ⟨r, t, hrun, hrun'⟩
  · rw [hsame]
    cases hrun : runCommand c s with
    | next p => exact ⟨p.2, rfl, rfl, rfl, rfl, rfl⟩
    | fault e => rfl
    | refused e => rfl
  · rw [hrun, hrun']
    exact ⟨_, rfl, rfl, rfl, rfl, rfl⟩

/-! ### An exception that repeats -/

theorem Status.isException_iff (st : Status) :
    st.isException = true ↔ st = .invalidInstruction ∨ st = .arithmeticOverflow := by
  cases st <;> simp [Status.isException]

/-- Without the advance and without ready answers, an exception changes nothing but the status (R57, R102). -/
theorem step_exception_eq_raise {s t : State} (hadv : s.params.pcAdvanceOnException = false)
    (hanswers : s.mem.answers = []) (h : step s = .next t) (hexc : t.status.isException = true) :
    t = { s with status := t.status } := by
  have hstatus := (Status.isException_iff _).mp hexc
  have hfail : t.status ≠ .success := by rcases hstatus with hs | hs <;> simp [hs]
  have hregs : t.regs = s.regs := (stepWritesAtMostDestination s t h).1 hfail
  have hpc : t.pc = s.pc := ((programCounterAfterDispatch s t h).2 hstatus).2 hadv
  have hmem : t.mem = s.mem := by rw [step_mem h, Memory.read_of_bytes hanswers]
  have hparams : t.params = s.params := step_params h
  rw [← hregs, ← hpc, ← hmem, ← hparams]

theorem run_of_step_self {t : State} (h : step t = .next t) (n : Nat) :
    Host.Core.run Sys2Proof.core n t = .next t := by
  induction n with
  | zero => rfl
  | succ n ih => rw [run_of_step_next h, ih]

/-- Settles O36: the state after the exception differs from the one before in the status alone, so it steps to
itself. -/
theorem exceptionRepeatsWithoutAdvance : Obligations.ExceptionRepeatsWithoutAdvance := by
  intro s t n hadv hanswers h hexc
  have hself : step t = .next t := by
    rw [step_exception_eq_raise hadv hanswers h hexc, step_with_status, h,
      ← step_exception_eq_raise hadv hanswers h hexc]
  rw [run_of_step_next h, run_of_step_self hself]

/-! ### Runs of a collaborator that answers -/

theorem State.memoryAnswers.read_ne_silent {s : State} (h : s.memoryAnswers) (m : Memory) :
    s.mem.read s.pc ≠ (.silent, m) := by
  unfold State.memoryAnswers at h
  intro hread
  cases hready : s.mem.answers with
  | nil =>
    rw [Memory.read_of_bytes hready] at hread
    exact Memory.byteAnswer_ne_silent _ _ (Prod.mk.inj hread).1
  | cons a rest =>
    rw [Memory.read_of_ready hready] at hread
    exact h (by simp [hready, (Prod.mk.inj hread).1])

theorem State.memoryAnswers.of_step {s t : State} (h : s.memoryAnswers) (ht : step s = .next t) :
    t.memoryAnswers := by
  unfold State.memoryAnswers
  rw [step_mem ht, Memory.read_answers]
  exact fun hmem => h (List.mem_of_mem_tail hmem)

/-- Settles O37, by induction on the number of steps: a collaborator that is not silent answers the first step and is
not silent after it. -/
theorem runNeverStops : Obligations.RunNeverStops := by
  intro n
  induction n with
  | zero => exact fun s _ => ⟨s, rfl, fun _ => rfl, rfl, rfl⟩
  | succ n ih =>
    intro s h
    obtain ⟨u, hu⟩ := step_answers_of_not_silent h.read_ne_silent
    obtain ⟨t, hrun, hbytes, hparams, hanswers⟩ := ih u (h.of_step hu)
    refine ⟨t, ?_, fun a => ?_, ?_, ?_⟩
    · rw [run_of_step_next hu, hrun]
    · rw [hbytes, step_readByte hu]
    · rw [hparams, step_params hu]
    · rw [hanswers, step_mem hu, Memory.read_answers, List.drop_tail]

/-! ### Sequences of commands -/

theorem setRegister_params (n : Nat) (v : Word) (s : State) : (setRegister n v s).2.params = s.params := by
  unfold setRegister
  split
  · exact State.writeReg_params s _ v
  · rfl

/-- The parameters are fixed (R5). -/
theorem runCommand_params {c : Command} {s t : State} {r : Response} (h : runCommand c s = .next (r, t)) :
    t.params = s.params := by
  cases c with
  | step => exact step_params (runCommand_step_next h).1
  | setRegister n v =>
    have hparams := setRegister_params n v s
    rw [show setRegister n v s = (r, t) from Host.Outcome.next.inj h] at hparams
    exact hparams
  | reset | getRegister | getPc | setPc | setDebugLevel =>
    cases h
    rfl

/-- The step's read changes neither the bytes nor the policy, and no other command touches the memory (R17, R25). -/
theorem runCommand_mem {c : Command} {s t : State} {r : Response} (h : runCommand c s = .next (r, t)) :
    t.mem.cells = s.mem.cells ∧ t.mem.policy = s.mem.policy := by
  by_cases hc : c = .step
  · subst hc
    rw [step_mem (runCommand_step_next h).1]
    exact ⟨Memory.read_cells _ _, Memory.read_policy _ _⟩
  · rw [(runCommand_ne_step hc h).1]
    exact ⟨rfl, rfl⟩

/-- A sequence that answers is its first command, which answers, and the rest from the state after it. -/
theorem runCommands_cons_next {c : Command} {cs : List Command} {s u : State} {rs : List Response}
    (h : runCommands (c :: cs) s = .next (rs, u)) :
    ∃ r t rs', runCommand c s = .next (r, t) ∧ runCommands cs t = .next (rs', u) ∧ rs = r :: rs' := by
  rw [runCommands] at h
  cases hc : runCommand c s with
  | fault e => simp [hc] at h
  | refused e => simp [hc] at h
  | next p =>
    cases hcs : runCommands cs p.2 with
    | fault e => simp [hc, hcs] at h
    | refused e => simp [hc, hcs] at h
    | next q =>
      simp only [hc, hcs, Host.Outcome.next.injEq, Prod.mk.injEq] at h
      exact ⟨p.1, p.2, q.1, rfl, by rw [hcs, ← h.2], h.1.symm⟩

theorem runCommands_keeps {cs : List Command} {s t : State} {rs : List Response}
    (h : runCommands cs s = .next (rs, t)) :
    t.mem.cells = s.mem.cells ∧ t.mem.policy = s.mem.policy ∧ t.params = s.params ∧ rs.length = cs.length := by
  induction cs generalizing s rs with
  | nil =>
    cases h
    exact ⟨rfl, rfl, rfl, rfl⟩
  | cons c cs ih =>
    obtain ⟨r, u, rs', hc, hcs, rfl⟩ := runCommands_cons_next h
    obtain ⟨hcells, hpolicy, hparams, hlength⟩ := ih hcs
    obtain ⟨hcells', hpolicy'⟩ := runCommand_mem hc
    exact ⟨hcells.trans hcells', hpolicy.trans hpolicy', hparams.trans (runCommand_params hc),
      by rw [List.length_cons, List.length_cons, hlength]⟩

/-- Settles O40: the list of bytes is the same one, so every byte and the canonical form are too. -/
theorem commandsNeverChangeMemory : Obligations.CommandsNeverChangeMemory := by
  intro cs s t rs h
  obtain ⟨hcells, hpolicy, hparams, hlength⟩ := runCommands_keeps h
  refine ⟨fun a => ?_, hpolicy, hparams, hlength, fun hwf => ?_⟩
  · rw [Memory.readByte, hcells, Memory.readByte]
  · rw [Memory.wf, hcells]
    exact hwf

end Sys2Proof.Machine

/-! PROOFS. The registers and the host commands that read and write them and the program counter (10_state.md R12, R13;
43_host_commands.md R84 to R87, R92; 60_exceptions.md R99). -/

namespace Sys2Proof.Machine

/-! ### Registers -/

theorem State.hardwired_writeReg (s : State) (i j : RegIdx) (v : Word) :
    (s.writeReg i v).hardwired j ↔ s.hardwired j := by
  rw [State.hardwired, State.hardwired, State.writeReg_params]

/-- A write leaves every other register as it read (R13). -/
theorem State.readReg_writeReg_other {i j : RegIdx} (h : j ≠ i) (s : State) (v : Word) :
    (s.writeReg i v).readReg j = s.readReg j := by
  by_cases hj : s.hardwired j
  · rw [State.readReg_hardwired hj, State.readReg_hardwired ((s.hardwired_writeReg i j v).mpr hj)]
  · rw [State.readReg_slot hj, State.readReg_slot ((s.hardwired_writeReg i j v).not.mpr hj),
      State.writeReg_get_other h]

/-- Settles O23: the rules of a register read after a write. -/
theorem registerReadsLastWrite : Obligations.RegisterReadsLastWrite := by
  intro s i v
  exact ⟨fun h => ⟨State.readReg_hardwired h, State.writeReg_regs_hardwired h v⟩,
    fun h => State.readReg_writeReg_self h v, fun _ hj => State.readReg_writeReg_other hj s v,
    s.writeReg_pc i v, s.writeReg_mem i v, s.writeReg_params i v⟩

/-- A register command's write has the frame of an instruction's (R85). -/
theorem State.writeReg_onlyRegisterWritten (s : State) (i : RegIdx) (v : Word) :
    OnlyRegisterWritten s (s.writeReg i v) i v :=
  s.complete_onlyRegisterWritten i v

theorem State.readReg_writeReg_self_ite (s : State) (i : RegIdx) (v : Word) :
    (s.writeReg i v).readReg i = if s.hardwired i then 0 else v := by
  split
  · next h => rw [State.writeReg_regs_hardwired h, State.readReg_hardwired h]
  · next h => exact State.readReg_writeReg_self h v

/-! ### The register commands -/

theorem runCommand_getRegister_of_lt {n : Nat} (h : n < 32) (s : State) :
    runCommand (.getRegister n) s = .next ({ status := .success, value := some (s.readReg ⟨n, h⟩) }, s) := by
  rw [runCommand, getRegister_of_lt h]

theorem runCommand_setRegister_of_lt {n : Nat} (h : n < 32) (v : Word) (s : State) :
    runCommand (.setRegister n v) s = .next (Response.of .success, s.writeReg ⟨n, h⟩ v) := by
  rw [runCommand, setRegister_of_lt h]

/-- Settles O44: the index is in range, or it is a bad one. -/
theorem getRegisterReturnsValue : Obligations.GetRegisterReturnsValue :=
  fun n s => ⟨fun h => runCommand_getRegister_of_lt h s, fun h => runCommand_of_hasBadIndex (by simpa using h) s⟩

/-- Settles O45: the command is a register write, read back by the rule of a read after a write. -/
theorem setRegisterRoundTrip : Obligations.SetRegisterRoundTrip := by
  intro n v s
  refine ⟨fun h => ?_, fun h => runCommand_of_hasBadIndex (by simpa using h) s⟩
  refine ⟨_, runCommand_setRegister_of_lt h v s, s.writeReg_onlyRegisterWritten _ v, s.writeReg_status _ v, ?_,
    fun hw => State.writeReg_regs_hardwired hw v⟩
  rw [runCommand_getRegister_of_lt h, State.readReg_writeReg_self_ite]

/-! ### The program counter's commands, and the rest -/

theorem runCommand_getPc (s : State) :
    runCommand .getPc s = .next ({ status := .success, value := some s.pc }, s) := rfl

theorem runCommand_setPc (v : Word) (s : State) :
    runCommand (.setPc v) s = .next (Response.of .success, setPc v s) := rfl

/-- Settles O46: `set_pc` stores the value as it is, and the step's read is at the program counter. -/
theorem setPcThenGetPc : Obligations.SetPcThenGetPc := by
  intro v s
  refine ⟨runCommand_getPc s, _, runCommand_setPc v s, setPc_pc v s, setPc_regs v s, setPc_mem v s, setPc_params v s,
    runCommand_getPc _, fun a m hread => ?_⟩
  exact step_eq_afterFetch (by rw [setPc_mem, setPc_pc, hread])

/-- Settles O49, by the definition of the command. -/
theorem debugLevelDoesNothing : Obligations.DebugLevelDoesNothing := fun _ _ => rfl

/-- The status of a number, the converse of the optional numbering (R99). -/
def Status.ofCode : Nat → Status
  | 0 => .success
  | 1 => .invalidArgument
  | 2 => .invalidInstruction
  | 3 => .arithmeticOverflow
  | c + 4 => .memFailure c

theorem Status.ofCode_code (st : Status) : Status.ofCode st.code = st := by
  cases st with
  | memFailure c => rw [Status.code, Nat.add_comm, Status.ofCode]
  | success | invalidArgument | invalidInstruction | arithmeticOverflow => rfl

/-- Settles O50: the numbering can be undone. -/
theorem statusCodesDiffer : Obligations.StatusCodesDiffer :=
  fun _ _ h => Function.LeftInverse.injective Status.ofCode_code h

end Sys2Proof.Machine

/-! PROOFS. The decoder on every word: round trip, mask and match, illegal words, byte order, routing
(20_memory.md R27; 30_encoding.md R41 to R47). -/

namespace Sys2Proof

/-! ### Encode of decode, and the opcode table's mask -/

/-- Settles O3: what decodes has opcode 0 and its instruction's fields, and such a word is the word of its fields. -/
theorem encodeOfDecodedWord : Obligations.EncodeOfDecodedWord := by
  intro w i h
  obtain ⟨hop, hfunct, hrs, hrt, hrd, hshamt⟩ := decode_ok h
  constructor
  · rw [Instr.WellFormed, ← hshamt]
    exact shamtOf_lt w
  · rw [encode, ← hfunct, ← hrs, ← hrt, ← hrd, ← hshamt, registerWord_of_fields hop]

/-- A word is a function code under the mask iff its opcode is 0 and its function code is that one (R44). -/
theorem and_mask_eq_iff {w v : Word} (hv : v.toNat < 2 ^ 6) :
    w &&& 0xFC00003F#32 = v ↔ w.toNat / 2 ^ 26 = 0 ∧ w.toNat % 2 ^ 6 = v.toNat := by
  rw [← BitVec.toNat_inj, and_mask_toNat, opcodeOf_toNat, functOf_toNat]
  omega

/-- The mask and match column of R44's table, for an instruction with its function code. -/
theorem Machine.EncodedBy.mask_iff {mk : RegIdx → RegIdx → RegIdx → Nat → Instr} {v : Word}
    (h : Machine.EncodedBy mk v.toNat) (hv : v.toNat < 2 ^ 6) (w : Word) :
    w &&& 0xFC00003F#32 = v ↔
      decode w = .ok (mk (regField 21 w) (regField 16 w) (regField 11 w) (shamtOf w)) := by
  rw [and_mask_eq_iff hv, h w]

/-- Settles O4: each instruction's function code is below 64, and it is encoded by it. -/
theorem maskAndMatchSelectInstruction : Obligations.MaskAndMatchSelectInstruction := by
  intro w
  refine ⟨?add, ?addu, ?sub, ?subu, ?and, ?or, ?xor⟩
  case add => exact Machine.addWritesSumOrOverflows.1.mask_iff (by decide) w
  case addu => exact Machine.adduWritesWrappedSum.1.mask_iff (by decide) w
  case sub => exact Machine.subWritesDifferenceOrOverflows.1.mask_iff (by decide) w
  case subu => exact Machine.subuWritesWrappedDifference.1.mask_iff (by decide) w
  case and => exact Machine.andWritesBitwiseAnd.1.mask_iff (by decide) w
  case or => exact Machine.orWritesBitwiseOr.1.mask_iff (by decide) w
  case xor => exact Machine.xorWritesBitwiseXor.1.mask_iff (by decide) w

/-! ### Illegal words -/

/-- The legal words in terms of the decoder's fields (R44). -/
theorem legalWord_iff (w : Word) :
    Machine.LegalWord w ↔ (opcodeOf w).toNat = 0 ∧ 0x20 ≤ (functOf w).toNat ∧ (functOf w).toNat ≤ 0x26 := by
  rw [Machine.LegalWord, opcodeOf_toNat, functOf_toNat]

/-- Every function code of R44 is an instruction's. -/
theorem exists_functCode {f : BitVec 6} (hlo : 0x20 ≤ f.toNat) (hhi : f.toNat ≤ 0x26) (rs rt rd : RegIdx)
    (shamt : Nat) : ∃ i, select (.register rs rt rd shamt f) = .ok i := by
  obtain ⟨n, hn, rfl⟩ : ∃ n < 7, f = BitVec.ofNat 6 (0x20 + n) :=
    ⟨f.toNat - 0x20, by omega, BitVec.eq_of_toNat_eq (by rw [BitVec.toNat_ofNat]; omega)⟩
  interval_cases n <;> exact ⟨_, rfl⟩

/-- A function code that selects nothing is rejected under its own name (R47 (a) to (c)). -/
theorem select_register_error {rs rt rd : RegIdx} {shamt : Nat} {f : BitVec 6} {e : Reject}
    (h : select (.register rs rt rd shamt f) = .error e) : e = .unknownFunction f := by
  simp only [select] at h
  split_ifs at h
  exact (Except.error.inj h).symm

theorem exists_decode_of_legalWord {w : Word} (h : Machine.LegalWord w) : ∃ i, decode w = .ok i := by
  obtain ⟨hop, hlo, hhi⟩ := (legalWord_iff w).mp h
  rw [decode_register hop]
  exact exists_functCode hlo hhi _ _ _ _

theorem decode_unknownFunction {w : Word} (hop : (opcodeOf w).toNat = 0) (h : ¬ Machine.LegalWord w) :
    decode w = .error (.unknownFunction (functOf w)) := by
  cases hd : decode w with
  | ok i => exact absurd (Machine.legalWord_of_decode_ok hd) h
  | error e =>
    rw [decode_register hop] at hd
    rw [select_register_error hd]

theorem decode_immediateFormat {w : Word} (h : classify w = .immediate) :
    decode w = .error (.immediateFormat (opcodeOf w)) := by
  rw [decode, fieldsOf_immediate h, select]

theorem decode_jumpFormat {w : Word} (h : classify w = .jump) : decode w = .error (.jumpFormat (opcodeOf w)) := by
  rw [decode, fieldsOf_jump h, select]

/-- Settles O5: the legal words decode, and an illegal one is rejected in its family. -/
theorem illegalWordsRejectedByClass : Obligations.IllegalWordsRejectedByClass := by
  intro w
  rw [← opcodeOf_toNat]
  refine ⟨⟨fun ⟨i, hd⟩ => Machine.legalWord_of_decode_ok hd, exists_decode_of_legalWord⟩, decode_unknownFunction,
    fun hlo hhi => ?_, fun hlo => ?_⟩
  · exact decode_immediateFormat ((classify_eq_immediate_iff w).mpr ⟨hlo, hhi⟩)
  · exact decode_jumpFormat ((classify_eq_jump_iff w).mpr hlo)

/-! ### The byte order -/

theorem append_byte_toNat {n : Nat} (x : BitVec n) (b : Byte) : (x ++ b).toNat = x.toNat * 2 ^ 8 + b.toNat := by
  rw [BitVec.toNat_append, ← Nat.shiftLeft_add_eq_or_of_lt b.isLt, Nat.shiftLeft_eq]

theorem wordOfBytes_big_toNat (b0 b1 b2 b3 : Byte) :
    (wordOfBytes .big b0 b1 b2 b3).toNat = b0.toNat * 2 ^ 24 + b1.toNat * 2 ^ 16 + b2.toNat * 2 ^ 8 + b3.toNat := by
  rw [wordOfBytes, append_byte_toNat, append_byte_toNat, append_byte_toNat]
  ring

/-- The little order reads the same four bytes from the other end (R27). -/
theorem wordOfBytes_little (b0 b1 b2 b3 : Byte) : wordOfBytes .little b0 b1 b2 b3 = wordOfBytes .big b3 b2 b1 b0 :=
  rfl

/-- Settles O8: the bytes as digits to the base 2^8, and parameters that no command changes. -/
theorem byteOrderFormsWord : Obligations.ByteOrderFormsWord := by
  refine ⟨fun b0 b1 b2 b3 => ⟨wordOfBytes_big_toNat b0 b1 b2 b3, ?_⟩, fun c s t r h => ?_, rfl⟩
  · rw [wordOfBytes_little, wordOfBytes_big_toNat]
  · rw [Machine.runCommand_params h]

end Sys2Proof

namespace Sys2Proof.Machine

/-! ### The shift amount plays no part -/

/-- Every field but the shift amount is read from the bits outside 10:6 (R46). -/
theorem fields_of_and_shamt_mask (w : Word) :
    opcodeOf (w &&& 0xFFFFF83F#32) = opcodeOf w ∧ functOf (w &&& 0xFFFFF83F#32) = functOf w ∧
      regField 21 (w &&& 0xFFFFF83F#32) = regField 21 w ∧ regField 16 (w &&& 0xFFFFF83F#32) = regField 16 w ∧
      regField 11 (w &&& 0xFFFFF83F#32) = regField 11 w := by
  have hfield : ∀ lo len : Nat, (0xFFFFF83F#32).extractLsb' lo len = BitVec.allOnes len →
      (w &&& 0xFFFFF83F#32).extractLsb' lo len = w.extractLsb' lo len := by
    intro lo len hones
    rw [BitVec.extractLsb'_and, hones, BitVec.and_allOnes]
  unfold opcodeOf functOf regField
  rw [hfield 26 6 (by decide), hfield 0 6 (by decide), hfield 21 5 (by decide), hfield 16 5 (by decide),
    hfield 11 5 (by decide)]
  exact ⟨rfl, rfl, rfl, rfl, rfl⟩

/-- Instructions with the same function code and registers have the same meaning, whatever their shift amounts. -/
theorem exec_select_shamt {rs rt rd : RegIdx} {shamt : Nat} {f : BitVec 6} {i : Instr}
    (h : select (.register rs rt rd shamt f) = .ok i) (shamt' : Nat) :
    ∃ j, select (.register rs rt rd shamt' f) = .ok j ∧ exec j = exec i := by
  obtain ⟨rfl, rfl, rfl, -, rfl⟩ := Decoded.register.inj (select_ok h)
  cases i <;> exact ⟨_, rfl, rfl⟩

/-- Settles O9: the two words are both illegal, or select instructions that differ in the shift amount alone. -/
theorem shiftAmountIgnored : Obligations.ShiftAmountIgnored := by
  intro w w' s h
  obtain ⟨hop, hfunct, hrs, hrt, hrd⟩ := fields_of_and_shamt_mask w
  obtain ⟨hop', hfunct', hrs', hrt', hrd'⟩ := fields_of_and_shamt_mask w'
  rw [h] at hop hfunct hrs hrt hrd
  have eop := hop.symm.trans hop'
  have efunct := hfunct.symm.trans hfunct'
  by_cases hw : LegalWord w
  · have hzero := ((legalWord_iff w).mp hw).1
    obtain ⟨i, hd⟩ := exists_decode_of_legalWord hw
    rw [decode_register hzero] at hd
    obtain ⟨j, hj, hexec⟩ := exec_select_shamt hd (shamtOf w')
    rw [dispatchWord_of_decode ((decode_register hzero).trans hd)]
    rw [← hrs, ← hrt, ← hrd, efunct, hrs', hrt', hrd', ← decode_register (by rw [← eop]; exact hzero)] at hj
    rw [dispatchWord_of_decode hj, hexec]
  · have hw' : ¬ LegalWord w' := by rwa [legalWord_iff, ← eop, ← efunct, ← legalWord_iff]
    rw [dispatchWord_of_illegal hw, dispatchWord_of_illegal hw']

/-! ### The routing by the function code -/

/-- A word with opcode 0 and an instruction's function code runs that instruction on its fields (R56). -/
theorem EncodedBy.dispatchWord_eq {mk : RegIdx → RegIdx → RegIdx → Nat → Instr} {f : Nat} (h : EncodedBy mk f)
    {w : Word} (hop : w.toNat / 2 ^ 26 = 0) (hf : w.toNat % 2 ^ 6 = f) (s : State) :
    dispatchWord w s = exec (mk (regField 21 w) (regField 16 w) (regField 11 w) (shamtOf w)) s :=
  dispatchWord_of_decode ((h w).mpr ⟨hop, hf⟩) s

/-- Bit 0 of the function code, the unit's `uns` (D8), as a parity. -/
theorem getLsbD_zero_eq (w : Word) : w.getLsbD 0 = decide (w.toNat % 2 = 1) := by
  rw [BitVec.getLsbD, Nat.testBit_zero]

/-- Bit 1 of the function code, the unit's `sub` (D8), as a parity. -/
theorem getLsbD_one_eq (w : Word) : w.getLsbD 1 = decide (w.toNat / 2 % 2 = 1) := by
  rw [BitVec.getLsbD, Nat.testBit_succ, Nat.testBit_zero]

/-- The arithmetic unit's part of R43: the function codes 0x20 to 0x23. -/
theorem dispatchWord_arithmetic {w : Word} (hop : w.toNat / 2 ^ 26 = 0) (hhi : w.toNat / 2 ^ 4 % 4 = 2)
    (hlo : w.toNat % 2 ^ 4 < 4) (s : State) :
    dispatchWord w s =
      arithmetic (w.getLsbD 1) (w.getLsbD 0) (regField 21 w) (regField 16 w) (regField 11 w) s := by
  rw [getLsbD_zero_eq, getLsbD_one_eq]
  obtain hf | hf | hf | hf : w.toNat % 2 ^ 6 = 0x20 ∨ w.toNat % 2 ^ 6 = 0x21 ∨ w.toNat % 2 ^ 6 = 0x22 ∨
    w.toNat % 2 ^ 6 = 0x23 := by omega
  · rw [addWritesSumOrOverflows.1.dispatchWord_eq hop hf, exec_add, decide_eq_false (by omega),
      decide_eq_false (by omega)]
  · rw [adduWritesWrappedSum.1.dispatchWord_eq hop hf, exec_addu, decide_eq_false (by omega),
      decide_eq_true (by omega)]
  · rw [subWritesDifferenceOrOverflows.1.dispatchWord_eq hop hf, exec_sub, decide_eq_true (by omega),
      decide_eq_false (by omega)]
  · rw [subuWritesWrappedDifference.1.dispatchWord_eq hop hf, exec_subu, decide_eq_true (by omega),
      decide_eq_true (by omega)]

/-- The operation of the logic unit that the low nibble of the function code selects (R43, R77). -/
def logicOf (nibble : Nat) (a b : Word) : Word :=
  if nibble = 4 then a &&& b else if nibble = 5 then a ||| b else a ^^^ b

/-- The logic unit's part of R43: the function codes 0x24 to 0x26. -/
theorem dispatchWord_logic {w : Word} (hop : w.toNat / 2 ^ 26 = 0) (hhi : w.toNat / 2 ^ 4 % 4 = 2)
    (hlo : 4 ≤ w.toNat % 2 ^ 4) (hlo' : w.toNat % 2 ^ 4 ≤ 6) (s : State) :
    dispatchWord w s = logic (logicOf (w.toNat % 2 ^ 4)) (regField 21 w) (regField 16 w) (regField 11 w) s := by
  obtain hn | hn | hn : w.toNat % 2 ^ 4 = 4 ∨ w.toNat % 2 ^ 4 = 5 ∨ w.toNat % 2 ^ 4 = 6 := by omega
  · rw [andWritesBitwiseAnd.1.dispatchWord_eq hop (by omega), hn]
    rfl
  · rw [orWritesBitwiseOr.1.dispatchWord_eq hop (by omega), hn]
    rfl
  · rw [xorWritesBitwiseXor.1.dispatchWord_eq hop (by omega), hn]
    rfl

/-- Settles O10: the two units' parts of the function codes, and the illegal words outside them. -/
theorem dispatchRoutesByFunctionCode : Obligations.DispatchRoutesByFunctionCode := by
  intro w s hop
  refine ⟨fun hhi hlo => dispatchWord_arithmetic hop hhi hlo s, fun hhi hlo hlo' => ?logic, fun hout => ?illegal⟩
  case logic =>
    exact ⟨_, _, (dispatchWord_logic hop hhi hlo hlo' s).trans (logic_eq _ _ _ _ s), State.complete_status _ _ _,
      State.complete_onlyRegisterWritten _ _ _, rfl⟩
  case illegal =>
    have hw : ¬ LegalWord w := by
      rintro ⟨-, hlo, hhi⟩
      omega
    exact ⟨_, dispatchWord_of_illegal hw s, State.raise_status _ _, State.raise_nothingWritten _ _⟩

end Sys2Proof.Machine

/-! PROOFS. The overflow tables of ADD and SUB, the laws between the trapping and the non-trapping forms, and equal
sources (41_arithmetic.md section 3; 42_logic.md sections 2 and 3). -/

namespace Sys2Proof.Machine

/-! ### The overflow test and the mathematical one -/

/-- The sign-bit test on a sum is the mathematical one, without exception. -/
theorem overflowHolds_signbit_add_iff (a e : Word) :
    OverflowHolds .signbit a e (a + e) ↔ ¬ fitsS32 (a.toInt + e.toInt) := by
  have ha := a.toInt_lt
  have ha' := a.le_toInt
  have he := e.toInt_lt
  have he' := e.le_toInt
  have hr := (a + e).toInt_lt
  have hr' := (a + e).le_toInt
  have hsum := dvd_toInt_add_sub a e
  rw [overflowHolds_signbit_iff_toInt]
  unfold fitsS32
  omega

/-- Either test on a sum is the mathematical one, but for the one pair on which the strict test does not hold. -/
theorem overflowHolds_add_iff (d : OvfDetect) {a e : Word} (h : ¬ (a = int32Min ∧ e = int32Min)) :
    OverflowHolds d a e (a + e) ↔ ¬ fitsS32 (a.toInt + e.toInt) := by
  rw [← overflowHolds_signbit_add_iff]
  cases d with
  | signbit => rfl
  | strict => rw [overflowHolds_signbit_iff, or_iff_left h]

/-- Either test on a difference is the mathematical one when the target's negation does not wrap. -/
theorem overflowHolds_sub_iff (d : OvfDetect) (a : Word) {b : Word} (h : b ≠ int32Min) :
    OverflowHolds d a (-b) (a - b) ↔ ¬ fitsS32 (a.toInt - b.toInt) := by
  have hneg : -b ≠ int32Min := BitVec.neg_ne_intMin_inj.mpr h
  rw [BitVec.sub_eq_add_neg, overflowHolds_add_iff d (fun hmin => hneg hmin.2), BitVec.toInt_neg_of_ne_intMin h,
    Int.sub_eq_add_neg]

theorem neg_int32Min : -int32Min = int32Min := by decide

/-- With the target that its own negation is, either test holds for the negative sources but one (D7). -/
theorem overflowHolds_sub_int32Min_iff (d : OvfDetect) {a : Word} (h : a ≠ int32Min) :
    OverflowHolds d a (-int32Min) (a - int32Min) ↔ a.toInt < 0 := by
  have ha := a.toInt_lt
  have ha' := a.le_toInt
  have hmin : int32Min.toInt = -2 ^ 31 := (eq_int32Min_iff _).mp rfl
  rw [BitVec.sub_eq_add_neg, neg_int32Min, overflowHolds_add_iff d (fun hboth => h hboth.1), hmin]
  unfold fitsS32
  omega

theorem overflowHolds_signbit_int32Min : OverflowHolds .signbit int32Min int32Min (int32Min + int32Min) :=
  (overflowHolds_signbit_iff _ _).mpr (.inr ⟨rfl, rfl⟩)

theorem not_overflowHolds_strict_int32Min :
    ¬ OverflowHolds .strict int32Min int32Min (int32Min + int32Min) :=
  (overflow_eq_false_iff _ _ _ _).mp rfl

/-! ### ADD and SUB by their overflow test -/

theorem CompletesWith.status {i : Instr} {s t : State} {rd : RegIdx} {v : Word} (h : CompletesWith i s rd v)
    (ht : exec i s = .next t) : t.status = .success := by
  obtain ⟨u, hu, hstatus, -⟩ := h
  rw [hu] at ht
  cases ht
  exact hstatus

theorem raisesOverflow_iff (i : Instr) (s : State) : RaisesOverflow i s ↔ Overflows s i := by
  refine ⟨fun ⟨t, ht, hstatus, _⟩ => ?_, (exec_completes_or_raises i s).2⟩
  by_contra hov
  obtain ⟨v, hcompletes⟩ := (exec_completes_or_raises i s).1 hov
  simp [hcompletes.status ht] at hstatus

theorem add_completesWith {rs rt rd : RegIdx} {shamt : Nat} {s : State} (h : ¬ Overflows s (.add rs rt rd shamt)) :
    CompletesWith (.add rs rt rd shamt) s rd (s.readReg rs + s.readReg rt) :=
  (trapping_completes_or_raises (exec_add rs rt rd shamt s) rfl rfl).1 h

theorem sub_completesWith {rs rt rd : RegIdx} {shamt : Nat} {s : State} (h : ¬ Overflows s (.sub rs rt rd shamt)) :
    CompletesWith (.sub rs rt rd shamt) s rd (s.readReg rs - s.readReg rt) :=
  (trapping_completes_or_raises (exec_sub rs rt rd shamt s) (effectiveOperand_sub _)
    (BitVec.sub_eq_add_neg _ _).symm).1 h

/-- Settles O16: off the one pair the test is the mathematical one, and on it the two tests differ. -/
theorem addOverflowExactButOnePair : Obligations.AddOverflowExactButOnePair := by
  rintro rs rt rd shamt s _ _ rfl rfl
  refine ⟨fun hmin => ?exact, fun ha hb hd => ?strict, fun ha hb hd => ?signbit⟩
  case exact =>
    rw [raisesOverflow_iff]
    exact overflowHolds_add_iff _ hmin
  case strict =>
    have hov : ¬ Overflows s (.add rs rt rd shamt) := by
      rw [Overflows, ha, hb, hd]
      exact not_overflowHolds_strict_int32Min
    have hcompletes := add_completesWith hov
    rw [ha, hb] at hcompletes
    exact hcompletes
  case signbit =>
    rw [raisesOverflow_iff, Overflows, ha, hb, hd]
    exact overflowHolds_signbit_int32Min

/-- Subtracting 0x80000000 flips the top bit (the first row of SUB's table). -/
theorem sub_int32Min_eq_xor (a : Word) : a - int32Min = a ^^^ int32Min := by
  have ha := a.isLt
  have hdiv : (a.toNat ^^^ 2 ^ 31) / 2 ^ 31 = a.toNat / 2 ^ 31 ^^^ 1 := Nat.xor_div_two_pow
  have hmod : (a.toNat ^^^ 2 ^ 31) % 2 ^ 31 = a.toNat % 2 ^ 31 := by
    rw [Nat.xor_mod_two_pow, Nat.mod_self, Nat.xor_zero]
  apply BitVec.eq_of_toNat_eq
  rw [BitVec.toNat_sub, BitVec.toNat_xor, show int32Min.toNat = 2 ^ 31 from rfl]
  obtain hq | hq : a.toNat / 2 ^ 31 = 0 ∨ a.toNat / 2 ^ 31 = 1 := by omega
  · rw [hq, show 0 ^^^ 1 = 1 from rfl] at hdiv
    omega
  · rw [hq, show 1 ^^^ 1 = 0 from rfl] at hdiv
    omega

/-- Settles O17: for every other target the test is the mathematical one; the target 0x80000000 is its own negation, so
its rows are an addition's. -/
theorem subOverflowTable : Obligations.SubOverflowTable := by
  rintro rs rt rd shamt s _ _ rfl rfl
  refine ⟨fun hb => ?exact, fun hb ha => ?nonneg, fun hb ha hne => ?neg, fun hb ha hd => ?strict,
    fun hb ha hd => ?signbit⟩
  case exact =>
    have hov : Overflows s (.sub rs rt rd shamt) ↔ ¬ fitsS32 ((s.readReg rs).toInt - (s.readReg rt).toInt) :=
      overflowHolds_sub_iff _ _ hb
    rw [raisesOverflow_iff]
    exact ⟨hov, fun hfits => sub_completesWith (hov.not.mpr (not_not.mpr hfits))⟩
  case nonneg =>
    have hne : s.readReg rs ≠ int32Min := by
      rw [Ne, eq_int32Min_iff]
      omega
    have hov : ¬ Overflows s (.sub rs rt rd shamt) := by
      rw [Overflows, hb, overflowHolds_sub_int32Min_iff _ hne]
      omega
    rw [← sub_int32Min_eq_xor, ← hb]
    exact sub_completesWith hov
  case neg =>
    rw [raisesOverflow_iff, Overflows, hb, overflowHolds_sub_int32Min_iff _ hne]
    exact ha
  case strict =>
    have hov : ¬ Overflows s (.sub rs rt rd shamt) := by
      rw [Overflows, ha, hb, hd, BitVec.sub_eq_add_neg, neg_int32Min]
      exact not_overflowHolds_strict_int32Min
    have hcompletes := sub_completesWith hov
    rw [ha, hb] at hcompletes
    exact hcompletes
  case signbit =>
    rw [raisesOverflow_iff, Overflows, ha, hb, hd, BitVec.sub_eq_add_neg, neg_int32Min]
    exact overflowHolds_signbit_int32Min

/-! ### Two laws of the arithmetic unit -/

theorem overflowHolds_comm (d : OvfDetect) (a e r : Word) : OverflowHolds d a e r ↔ OverflowHolds d e a r := by
  cases d with
  | strict => exact or_congr and_left_comm and_left_comm
  | signbit =>
    unfold OverflowHolds
    rw [eq_comm (a := e.msb)]
    exact and_congr_right fun heq => by rw [heq]

theorem overflow_comm (d : OvfDetect) (a e r : Word) : overflow d a e r = overflow d e a r := by
  rw [Bool.eq_iff_iff, overflow_eq_true_iff, overflow_eq_true_iff, overflowHolds_comm]

/-- Exchanging the sources of an add changes neither its sum nor its test (R73). -/
theorem arithmetic_add_comm (uns : Bool) (rs rt rd : RegIdx) (s : State) :
    arithmetic false uns rs rt rd s = arithmetic false uns rt rs rd s := by
  unfold arithmetic State.sources
  simp only [effectiveOperand_add, sumPattern_eq]
  rw [overflow_comm, BitVec.add_comm]

/-- A trapping form that succeeds did not find its test to hold, so it did what the non-trapping form does (R73). -/
theorem arithmetic_success_eq_nonTrapping {sub : Bool} {rs rt rd : RegIdx} {s t : State}
    (h : arithmetic sub false rs rt rd s = .next t) (ht : t.status = .success) :
    arithmetic sub true rs rt rd s = .next t := by
  cases hov : overflow s.params.ovfDetect (s.readReg rs) (effectiveOperand sub (s.readReg rt))
    (s.readReg rs + effectiveOperand sub (s.readReg rt)) with
  | true =>
    rw [arithmetic_raises rfl rfl hov] at h
    cases h
    cases ht
  | false =>
    rw [arithmetic_completes rfl rfl (.inr hov)] at h
    rw [arithmetic_completes rfl rfl (.inl rfl), h]

/-- Settles O18: both trapping forms, and the exchange of an add's sources. -/
theorem trappingFormsAgreeWithNonTrapping : Obligations.TrappingFormsAgreeWithNonTrapping := by
  intro rs rt rd shamt s t
  rw [exec_add, exec_add, exec_addu, exec_sub, exec_subu]
  exact ⟨arithmetic_success_eq_nonTrapping, arithmetic_success_eq_nonTrapping, arithmetic_add_comm false rs rt rd s⟩

/-! ### The same register in both source roles -/

/-- The strict test does not hold on a result of 0 (R68). -/
theorem not_overflowHolds_strict_zero (a e : Word) : ¬ OverflowHolds .strict a e 0 := by
  simp [OverflowHolds]

/-- Settles O22: the results are `a - a`, `a ^^^ a`, `a &&& a` and `a ||| a`. -/
theorem sameSourceTwice : Obligations.SameSourceTwice := by
  intro rs rd shamt s
  refine ⟨?subu, ?xor, fun hd => ?sub, ?and, ?or⟩
  case subu =>
    refine completesWith_of_nonTrapping (exec_subu rs rs rd shamt s) ?_
    rw [effectiveOperand_sub, ← BitVec.sub_eq_add_neg, BitVec.sub_self]
    rfl
  case xor => simpa using completesWith_of_logic (exec_xor rs rs rd shamt s)
  case sub =>
    have hdiff : s.readReg rs - s.readReg rs = 0 := BitVec.sub_self _
    have hov : ¬ Overflows s (.sub rs rs rd shamt) := by
      rw [Overflows, hd, hdiff]
      exact not_overflowHolds_strict_zero _ _
    have hcompletes := sub_completesWith hov
    rw [hdiff] at hcompletes
    exact hcompletes
  case and => simpa using completesWith_of_logic (exec_and rs rs rd shamt s)
  case or => simpa using completesWith_of_logic (exec_or rs rs rd shamt s)

end Sys2Proof.Machine

/-! PROOFS. Plain bytes, the write port and the placing of a word (20_memory.md R24 to R29;
70_reset_and_hazards.md R113). -/

namespace Sys2Proof.Machine

/-! ### How the bytes answer a read -/

theorem Memory.byteAnswer_of_bytes {m : Memory} {addr : Word} {b0 b1 b2 b3 : Byte}
    (hserved : refuses m.policy addr 4 = none) (h0 : m.readByte (byteAddr m.policy addr 0) = some b0)
    (h1 : m.readByte (byteAddr m.policy addr 1) = some b1) (h2 : m.readByte (byteAddr m.policy addr 2) = some b2)
    (h3 : m.readByte (byteAddr m.policy addr 3) = some b3) : m.byteAnswer addr = .ok b0 b1 b2 b3 := by
  simp only [Memory.byteAnswer, hserved, h0, h1, h2, h3]

theorem Memory.byteAnswer_of_missing {m : Memory} {addr : Word} (hserved : refuses m.policy addr 4 = none)
    {k : Nat} (hk : k < 4) (h : m.readByte (byteAddr m.policy addr k) = none) :
    m.byteAnswer addr = .fail m.policy.absent := by
  simp only [Memory.byteAnswer, hserved]
  split
  · next h0 h1 h2 h3 => interval_cases k <;> simp_all
  · rfl

/-- Settles O25: with no answer ready the bytes answer, with the word or with the policy's code. -/
theorem plainBytesAnswerFetch : Obligations.PlainBytesAnswerFetch := by
  intro s hanswers hserved
  rw [Memory.read_of_bytes hanswers]
  refine ⟨fun b0 b1 b2 b3 h0 h1 h2 h3 => ?_, fun ⟨k, hk, hmissing⟩ => ?_⟩
  · refine ⟨b0, b1, b2, b3, ?_, rfl⟩
    rw [Memory.read_of_bytes hanswers, Memory.byteAnswer_of_bytes hserved h0 h1 h2 h3]
  · rw [Memory.byteAnswer_of_missing hserved hk hmissing]

/-! ### The write port -/

/-- A request of at most 2^32 bytes names no address twice, across the top of the space too (R24, R29). -/
theorem byteAddr_inj {p : MemPolicy} {addr : Word} {j k : Nat} (hj : j < 2 ^ 32) (hk : k < 2 ^ 32)
    (h : byteAddr p addr j = byteAddr p addr k) : j = k := by
  unfold byteAddr at h
  split at h <;> omega

/-- A byte of a request is there after the request's bytes are stored. -/
theorem Memory.readByte_putBytes_self (bs : List Byte) {m : Memory} (h : m.wf) (addr : Word) (k j : Nat)
    (hlen : k + bs.length ≤ 2 ^ 32) (hj : j < bs.length) :
    (m.putBytes addr k bs).readByte (byteAddr m.policy addr (k + j)) = some bs[j] := by
  induction bs generalizing m k j with
  | nil => exact absurd hj (Nat.not_lt_zero j)
  | cons b bs ih =>
    rw [List.length_cons] at hlen hj
    have hwf := Memory.putByte_wf h (byteAddr m.policy addr k) b
    cases j with
    | zero =>
      rw [Memory.putBytes, Memory.readByte_putBytes_other bs hwf, Memory.readByte_putByte h]
      · exact if_pos rfl
      · intro i hi hi' heq
        have := byteAddr_inj (by omega) (by omega) heq
        omega
    | succ j =>
      have hrest := ih hwf (k + 1) j (by omega) (by omega)
      rw [Memory.putByte_policy, Nat.add_right_comm, Nat.add_assoc] at hrest
      exact hrest

theorem Memory.write_success {m m' : Memory} {addr : Word} {bs : List Byte} (h : m.write addr bs = (.success, m')) :
    m' = m.putBytes addr 0 bs := by
  unfold Memory.write at h
  split at h
  · cases h
  · exact (Prod.mk.inj h).2.symm

/-- Settles O51: a write that succeeds stored its bytes, each at an address of its own. -/
theorem writePortStoresBytes : Obligations.WritePortStoresBytes := by
  intro m m' addr bytes hwf hlen h
  obtain rfl := Memory.write_success h
  refine ⟨fun k hk => ?_, fun a ha => ?_, Memory.putBytes_wf bytes hwf addr 0⟩
  · have hself := Memory.readByte_putBytes_self bytes hwf addr 0 k (by omega) hk
    rwa [Nat.zero_add] at hself
  · exact Memory.readByte_putBytes_other bytes hwf addr 0 a (fun j _ hj => ha j (by omega))

/-! ### Placing a word -/

theorem refuses_servingPolicy (p : MemPolicy) (pc : Word) : refuses (servingPolicy p pc) pc 4 = none := by
  unfold servingPolicy
  split
  · assumption
  · rfl

theorem withFetchWord_eq_placeWord (s : State) (w : Word) : s.withFetchWord 32 w.toNat = placeWord s w := by
  rw [State.withFetchWord, Nat.mod_eq_of_lt w.isLt, BitVec.ofNat_toNat, BitVec.setWidth_eq]

@[simp] theorem placeWord_regs (s : State) (w : Word) : (placeWord s w).regs = s.regs := rfl
@[simp] theorem placeWord_pc (s : State) (w : Word) : (placeWord s w).pc = s.pc := rfl
@[simp] theorem placeWord_params (s : State) (w : Word) : (placeWord s w).params = s.params := rfl

@[simp] theorem placeWord_answers (s : State) (w : Word) : (placeWord s w).mem.answers = [] :=
  Memory.putBytes_answers _ _ _ _

@[simp] theorem placeWord_policy (s : State) (w : Word) :
    (placeWord s w).mem.policy = servingPolicy s.mem.policy s.pc :=
  Memory.putBytes_policy _ _ _ _

theorem placeWord_wf {s : State} (h : s.mem.wf) (w : Word) : (placeWord s w).mem.wf :=
  Memory.putBytes_wf _ (m := { s.mem with policy := servingPolicy s.mem.policy s.pc, answers := [] }) h _ _

/-- The bytes of a placed word, at the addresses of the next fetch. -/
theorem placeWord_readByte {s : State} (h : s.mem.wf) (w : Word) {k : Nat}
    (hk : k < (bytesOfWord s.params.byteOrder w).length) :
    (placeWord s w).mem.readByte (byteAddr (placeWord s w).mem.policy (placeWord s w).pc k) =
      some (bytesOfWord s.params.byteOrder w)[k] := by
  have hlen : (bytesOfWord s.params.byteOrder w).length = 4 := by cases s.params.byteOrder <;> rfl
  have hself := Memory.readByte_putBytes_self (bytesOfWord s.params.byteOrder w)
    (m := { s.mem with policy := servingPolicy s.mem.policy s.pc, answers := [] }) h s.pc 0 k (by omega) hk
  rw [Nat.zero_add] at hself
  rw [placeWord_policy, placeWord_pc]
  exact hself

theorem placeWord_fetches {s : State} (h : s.mem.wf) (w : Word) : Fetches (placeWord s w) w (placeWord s w).mem := by
  obtain ⟨b0, b1, b2, b3, hbytes, hword⟩ := wordOfBytes_bytesOfWord s.params.byteOrder w
  have hread := fun k => placeWord_readByte h w (k := k)
  simp only [hbytes] at hread
  have hserved : refuses (placeWord s w).mem.policy (placeWord s w).pc 4 = none := by
    rw [placeWord_policy]
    exact refuses_servingPolicy _ _
  have hfetches := (plainBytesAnswerFetch _ (placeWord_answers s w) hserved).1 b0 b1 b2 b3
    (hread 0 (by simp)) (hread 1 (by simp)) (hread 2 (by simp)) (hread 3 (by simp))
  rwa [placeWord_params, hword] at hfetches

/-- Settles O52: the word's bytes are where the next fetch reads, and nothing stands in the way of the read. -/
theorem placedWordIsFetchedNext : Obligations.PlacedWordIsFetchedNext := by
  intro s w h
  rw [withFetchWord_eq_placeWord]
  exact ⟨placeWord_fetches h w, placeWord_regs s w, placeWord_pc s w, placeWord_params s w, placeWord_wf h w⟩

end Sys2Proof.Machine
